-- ==== Sys2Proof/Word.lean ====
section
/-! DEFINITION. The word types: the byte of `storage`, and what it is for a number to be a value of `W` bits. -/

namespace Sys2Proof

/-- The storage element (R5): a byte of 8 bits (decision D4 of spec/92_eei_decisions.md). -/
abbrev Byte := BitVec 8

/-- `v` is a `W`-bit value: a natural number in `[0, 2^W - 1]` (00_scope.md section 6). `W` is an open
parameter of the hardware (R2), so a register of `W` bits is a natural number with this bound as an
invariant and no bit vector type of one fixed width (assumption log 2). -/
def fitsIn (W v : Nat) : Bool := decide (v < 2 ^ W)

end Sys2Proof
end

