-- ==== Sys2Proof/Config.lean ====
section
/-! DEFINITION. What an instance of the hardware fixes when it is built (its parameters), and the free value. -/

namespace Sys2Proof

/-- Which of the two clocked blocks the instance is (00_scope.md section 1). The third block,
`ring_buffer_indexer`, is stateless (R89) and stands in Sys2Proof/Machine/Indexer.lean. -/
inductive Block where
  /-- `sync_fifo`: both ports in one clock domain, each transaction atomic (R90). -/
  | sync
  /-- `async_fifo`: two clock domains, phased transactions, Gray counter crossing (R110). -/
  | async
  deriving DecidableEq, Repr

/-- The parameters of R1 to R6. They are carried in State so that every statement ranges over all of
them, and no operation writes them (R11). `L = W` (R4), so `L` has no field of its own. -/
structure Config where
  /-- The block built. -/
  block : Block
  /-- Capacity `C` in bytes (R1, R11). -/
  C : Nat
  /-- Cursor width `W`, length width `L = W` (R2, R4). -/
  W : Nat
  /-- `N_SYNC`, the depth of each synchroniser of `async_fifo` (R6). -/
  nSync : Nat
  deriving DecidableEq, Repr

/-- The parameters State.reset is built with: the spec's running example `C = 8`, `W = 4` and the
reference value `N_SYNC = 2` of R6. DESIGN CHOICE (assumption log 1): R2 leaves `W` open and R1 makes `C`
the argument of construction. -/
def Config.reference : Config := { block := .sync, C := 8, W := 4, nSync := 2 }

/-- FREE VALUE (R25, R157; U2 of 93_implementation_defined.md): what the cell at offset `off` holds before
any PUT has written it, in the construction number `draw`. It has no body: nothing constrains it. -/
opaque Config.freeByte (draw off : Nat) : Byte

end Sys2Proof
end

