-- ==== Sys2Proof/Syntax.lean ====
section
/-! DEFINITION. The five operations of the opcode map (R56), and the port each one's word is presented on. -/

namespace Sys2Proof

/-- The three command formats, one port each (R52, R53, R54). -/
inductive Port where
  /-- Format R: the one-bit reset word `rst_n` / `arst_n`. -/
  | reset
  /-- Format P: `p_cmd`, `L+1` bits. -/
  | producer
  /-- Format C: `c_cmd`, `L+1` bits. -/
  | consumer
  deriving DecidableEq, Repr

/-- The operation set of R56, one constructor per row of spec/opcode_table.json. -/
inductive Instr where
  /-- INIT: construct the ring (R93, R139). -/
  | init
  /-- PUT with `requested_len = plen` (R94, R113). -/
  | put (plen : Nat)
  /-- PNOP: the producer does not call `put` (R96). -/
  | pnop
  /-- GET with `requested_len = clen` (R95, R119). -/
  | get (clen : Nat)
  /-- CNOP: the consumer does not call `get` (R97). -/
  | cnop
  deriving DecidableEq, Repr

/-- The port an operation's word is matched on: "Which word a pattern is matched against is fixed by the
port, not by the pattern" (R56, R150). -/
def Instr.port : Instr → Port
  | .init => .reset
  | .put _ => .producer
  | .pnop => .producer
  | .get _ => .consumer
  | .cnop => .consumer

end Sys2Proof
end

