-- ==== Sys2Proof/WellFormed.lean ====
section
/-! DEFINITION. When an operation can be written in a command word of length width `L`. -/

namespace Sys2Proof

/-- `requested_len` is any value `0 .. 2^L - 1` (R4, R55). The other operations carry no operand. -/
def Instr.wf (L : Nat) : Instr → Bool
  | .init => true
  | .put plen => fitsIn L plen
  | .pnop => true
  | .get clen => fitsIn L clen
  | .cnop => true

end Sys2Proof
end

