-- ==== Sys2Proof/Decode.lean ====
section
/-! DEFINITION. The command words: decoder of each port (R52 to R55, R59), then the encoder. -/

namespace Sys2Proof

/-- The slice `w[hi:lo]` of 00_scope.md section 6, as a number. -/
def bitSlice (hi lo w : Nat) : Nat := (w >>> lo) % 2 ^ (hi + 1 - lo)

/-- Why a word selects no operation. R59: no encoding is reserved or illegal, so the one such word is the
reset level 1. -/
inductive NoInstr where
  /-- Format R, level 1: "run (no operation; the other two formats are obeyed)" (R54). -/
  | run
  deriving DecidableEq, Repr

/-- Format R (R54): bit 0 clear is INIT, set is run. -/
def decodeR (w : Nat) : Except NoInstr Instr :=
  if bitSlice 0 0 w = 0 then .ok .init else .error .run

/-- Format P (R52): bit 0 is `pv`, bits `[L:1]` are `plen`, which PNOP ignores. Total (R59). -/
def decodeP (L w : Nat) : Instr :=
  if bitSlice 0 0 w = 1 then .put (bitSlice L 1 w) else .pnop

/-- Format C (R53): bit 0 is `cv`, bits `[L:1]` are `clen`, which CNOP ignores. Total (R59). -/
def decodeC (L w : Nat) : Instr :=
  if bitSlice 0 0 w = 1 then .get (bitSlice L 1 w) else .cnop

/-- The operation a word selects on a port (R56). -/
def decode (L : Nat) (port : Port) (w : Nat) : Except NoInstr Instr :=
  match port with
  | .reset => decodeR w
  | .producer => .ok (decodeP L w)
  | .consumer => .ok (decodeC L w)

/-- How many bits the word of a port has (R52, R53, R54). -/
def portWidth (L : Nat) : Port → Nat
  | .reset => 1
  | .producer => L + 1
  | .consumer => L + 1

/-- The word of an operation on its own port, written from the tables of R52, R53 and R54; the ignored
length field of an idle word has the canonical value 0 (R56). -/
def encode : Instr → Nat
  | .init => 0
  | .put plen => 2 * plen + 1
  | .pnop => 0
  | .get clen => 2 * clen + 1
  | .cnop => 0

/-- What the decoder reads from a word of the opcode table. The table gives a row's bits and not its port,
and PUT and GET, and INIT, PNOP and CNOP, have the same bits (R56): the word is taken as presented on
`p_cmd`, with the reference length width (assumption log 6). -/
def decodeTableWord (nbits w : Nat) : Option Instr :=
  some (decodeP Config.reference.W (w % 2 ^ nbits))

end Sys2Proof
end

