-- ==== Sys2Proof/Machine/State.lean ====
section
/-! DEFINITION. The machine's state, the reasons it can stop, and the state after reset. -/

namespace Sys2Proof.Machine

/-- `storage` (R12) as the list of the cells a PUT has written, offset and byte, offsets rising. An offset
not listed has no stored value: reading it gives the free value Config.freeByte (R157). -/
abbrev Memory := List Host.Cell

/-- The phases of a transaction of `async_fifo` (R23). -/
inductive Phase where
  | idle | sample | copy | barrier | advance | done
  deriving DecidableEq, Repr

/-- The agents of R110: who takes the next step. -/
inductive Agent where
  | host | prod | cons | sw2r | sr2w
  deriving DecidableEq, Repr

/-- Whether a ring exists (R26, R142). -/
inductive Life where
  /-- Before INIT: no ring has been constructed. -/
  | awaiting
  /-- INIT has succeeded and the reset level has been low ever since (R54, R146). -/
  | held
  /-- INIT has succeeded and reset has been released (R159). -/
  | running
  /-- INIT raised `InvalidCapacity`; the offending capacity is what is recorded (R141). -/
  | failed (capacity : Nat)
  deriving DecidableEq, Repr

/-- The input ports of R50 and R51 at one step. -/
structure Pins where
  /-- Format R word, one bit: `rst_n` / `arst_n` (R54). -/
  rstN : Nat
  /-- Format P word (R52). -/
  pCmd : Nat
  /-- The source byte stream offered on `p_data`, byte `i` being `source[i]` (R57). -/
  pData : List Byte
  /-- Format C word (R53). -/
  cCmd : Nat
  deriving DecidableEq, Repr

/-- No reset and an idle word on both ports. -/
def Pins.idle : Pins := { rstN := 1, pCmd := 0, pData := [], cCmd := 0 }

/-- One step of the outside world: which agent steps (`async_fifo` only; `sync_fifo` has one clock), and
what is on the input ports at that step (R90, R110). -/
structure Frame where
  agent : Agent
  pins : Pins
  deriving DecidableEq, Repr

/-- HOST presents no command and no agent steps. -/
def Frame.idle : Frame := { agent := .host, pins := .idle }

/-- What a GET returns: `c_count`, and the bytes delivered on `c_data` (R58, R125). -/
structure GetReturn where
  count : Nat
  data : List Byte
  deriving DecidableEq, Repr

/-- The registers of the write domain. Only the producer port logic writes them (R18, R111), but for
`wqRgray`, which the synchroniser R2W writes. -/
structure WriteDomain where
  /-- `write_cursor` (R13). -/
  writeCursor : Nat
  /-- `wgray` (R20), `async_fifo` only. -/
  wgray : Nat
  /-- `wq1_rgray .. wqN_rgray` (R21), stage 1 first, `async_fifo` only. -/
  wqRgray : List Nat
  /-- `p_phase` (R23); `idle` throughout in `sync_fifo`. -/
  pPhase : Phase
  /-- The request `req` that ACCEPT latched (R112). -/
  pReq : Nat
  /-- The handle on the source stream that ACCEPT latched (R112). -/
  pOffer : List Byte
  /-- `p_n` (R23). -/
  pN : Nat
  /-- `p_l1` (R23). -/
  pL1 : Nat
  /-- `p_l2` (R23). -/
  pL2 : Nat
  /-- `p_left` (R23). -/
  pLeft : Nat
  /-- `p_src` (R23): the source bytes taken. -/
  pSrc : List Byte
  /-- `p_done` and `p_count` of the last step: `some n` is `p_done = 1` with `p_count = n` (R50, R125). -/
  pReturn : Option Nat
  deriving DecidableEq, Repr

/-- The registers of the read domain. Only the consumer port logic writes them (R18, R111), but for
`rqWgray`, which the synchroniser W2R writes. -/
structure ReadDomain where
  /-- `read_cursor` (R14). -/
  readCursor : Nat
  /-- `rgray` (R20), `async_fifo` only. -/
  rgray : Nat
  /-- `rq1_wgray .. rqN_wgray` (R21), stage 1 first, `async_fifo` only. -/
  rqWgray : List Nat
  /-- `c_phase` (R23); `idle` throughout in `sync_fifo`. -/
  cPhase : Phase
  /-- The request `req` that ACCEPT latched (R112). -/
  cReq : Nat
  /-- `c_n` (R23). -/
  cN : Nat
  /-- `c_l1` (R23). -/
  cL1 : Nat
  /-- `c_l2` (R23). -/
  cL2 : Nat
  /-- `c_left` (R23). -/
  cLeft : Nat
  /-- `c_out` (R23): the bytes read. -/
  cOut : List Byte
  /-- `c_done`, `c_count` and `c_data` of the last step: `some r` is `c_done = 1` (R50, R125). -/
  cReturn : Option GetReturn
  deriving DecidableEq, Repr

/-- The write domain after INIT (R25, R156). The latches other than the phase are unspecified there; 0 and
the empty sequence are a DESIGN CHOICE (assumption log 3). -/
def WriteDomain.reset (nSync : Nat) : WriteDomain :=
  { writeCursor := 0, wgray := 0, wqRgray := List.replicate nSync 0, pPhase := .idle, pReq := 0,
    pOffer := [], pN := 0, pL1 := 0, pL2 := 0, pLeft := 0, pSrc := [], pReturn := none }

/-- The read domain after INIT (R25, R156); for the latches see WriteDomain.reset. -/
def ReadDomain.reset (nSync : Nat) : ReadDomain :=
  { readCursor := 0, rgray := 0, rqWgray := List.replicate nSync 0, cPhase := .idle, cReq := 0,
    cN := 0, cL1 := 0, cL2 := 0, cLeft := 0, cOut := [], cReturn := none }

/-- Why the machine stops with a fault. -/
inductive Fault where
  /-- Invariant 2 does not hold (`inv_ok = 0`): R153 has a model record a fault and give later operations no
  meaning. Raised by step, PUT and GET. Safe: the hardware goes on where the model stops. -/
  | invariantViolated
  deriving DecidableEq, Repr

/-- Why an input is not in the model's input language. -/
inductive Refusal where
  /-- An instruction without a meaning yet, by its mnemonic. Raised by exec only. Safe. -/
  | notModelled (mnemonic : String)
  /-- A PUT or GET word presented before INIT, which R159 forbids. Raised by PUT and GET. Safe. -/
  | commandBeforeInit
  /-- A PUT whose source is shorter than `requested_len` (R94, R164, U4). Raised by PUT. Safe. -/
  | sourceTooShort
  /-- Reset of a constructed ring: R158, "a model has no such move". Raised by INIT. Safe. -/
  | resetMidRun
  deriving DecidableEq, Repr

/-- Everything the spec gives the machine (R10), with the input ports and the model's own fields. -/
structure State where
  /-- `C`, `W`, `N_SYNC` and the block (R1 to R6, R11). No operation writes it. -/
  cfg : Config
  /-- Whether a ring exists (R26, R142). -/
  life : Life
  /-- The model's own: how many constructions have been begun; the free contents of storage depend on it
  (assumption log 4). -/
  draw : Nat
  /-- `storage` (R12). -/
  storage : Memory
  /-- The write domain. -/
  wd : WriteDomain
  /-- The read domain. -/
  rd : ReadDomain
  /-- The input ports at the last step (R50, R51). -/
  pins : Pins
  /-- The model's own: the steps of the outside world still to come, the next one first (R110). -/
  inputs : List Frame
  deriving DecidableEq, Repr

/-- The state before construction: parameters chosen, reset not yet applied (R160). -/
def State.unbuilt (cfg : Config) (inputs : List Frame) : State :=
  { cfg := cfg, life := .awaiting, draw := 0, storage := [], wd := .reset cfg.nSync,
    rd := .reset cfg.nSync, pins := .idle, inputs := inputs }

/-- The state right after a successful INIT, reset released (R25, R156, R159), for any parameters and any input still to come. -/
def State.built (cfg : Config) (inputs : List Frame) : State :=
  { State.unbuilt cfg inputs with life := .running, draw := 1 }

/-- The machine right after reset (R25, R156), with the parameters of Config.reference and no input. -/
def State.reset : State := State.built Config.reference []

end Sys2Proof.Machine
end

