-- ==== Sys2Proof/Machine/Indexer.lean ====
section
/-! DEFINITION. `ring_buffer_indexer` (spec/40_indexer.md): the stateless arithmetic of the other two blocks. -/

namespace Sys2Proof.Machine

/-- R65: true exactly when `C > 0` and `C = 2^k` for some natural `k`. -/
def isPow2 (C : Nat) : Bool := decide (0 < C) && decide (2 ^ Nat.log2 C = C)

/-- R65: `cap_ok(C, W)`. -/
def capOk (C W : Nat) : Bool := isPow2 C && decide (C < 2 ^ W)

/-- R66: `A = log2c(C)`, used only when `isPow2 C`. -/
def log2c (C : Nat) : Nat := Nat.log2 C

/-- R88: how many bits an offset `index(p)` has, `A`. -/
def offsetWidth (C : Nat) : Nat := log2c C

/-- R88: how many bits hold `queued`, `free`, the clamped lengths and the segment lengths, `A + 1`. -/
def countWidth (C : Nat) : Nat := log2c C + 1

/-- R67. -/
def mask (C : Nat) : Nat := C - 1

/-- R68: the storage offset of a logical position. -/
def index (C p : Nat) : Nat := p &&& mask C

/-- R69, the spec's `dist`: wrapping subtraction, `(a - b) mod 2^W` with the residue that is not negative. -/
def cursorDist (W a b : Nat) : Nat := (((a : Int) - (b : Int)) % ((2 ^ W : Nat) : Int)).toNat

/-- R70. -/
def queued (W w r : Nat) : Nat := cursorDist W w r

/-- R71; used only where the distance is at most `C`. -/
def free (C W w r : Nat) : Nat := C - cursorDist W w r

/-- R87: a cursor advanced by `n`. -/
def adv (W c n : Nat) : Nat := (c + n) % 2 ^ W

/-- R72. -/
def clampPut (C W req w r : Nat) : Nat := min req (free C W w r)

/-- R73. -/
def clampGet (W req w r : Nat) : Nat := min req (queued W w r)

/-- R74: the first contiguous copy, to the physical end. -/
def seg1 (C pos n : Nat) : Nat := min n (C - index C pos)

/-- R75: the second copy, from offset 0. -/
def seg2 (C pos n : Nat) : Nat := n - seg1 C pos n

/-- R76. -/
def isEmpty (W w r : Nat) : Bool := decide (cursorDist W w r = 0)

/-- R76. -/
def isFull (C W w r : Nat) : Bool := decide (cursorDist W w r = C)

/-- R77: the check of invariant 2. -/
def invOk (C W w r : Nat) : Bool := decide (cursorDist W w r ≤ C)

/-- R82: `b XOR (b >> 1)`, for a `W`-bit `b`. -/
def bin2gray (b : Nat) : Nat := b ^^^ (b >>> 1)

/-- R83: `g XOR (g >> 1) XOR ... XOR (g >> (W-1))`, for a `W`-bit `g`. -/
def gray2bin : Nat → Nat → Nat
  | 0, _ => 0
  | W + 1, g => gray2bin W g ^^^ (g >>> W)

end Sys2Proof.Machine
end

