-- ==== Sys2Proof/Machine/Operands.lean ====
section
/-! DEFINITION. The operands: the two cursors as each side knows them, the source of a PUT, the destination of
a GET. -/

namespace Sys2Proof.Machine

/-- `wr_seen` (R22): the Gray decode of the last stage of the synchroniser W2R. -/
def State.wrSeen (s : State) : Nat := gray2bin s.cfg.W (s.rd.rqWgray.getLastD 0)

/-- `rd_seen` (R22): the Gray decode of the last stage of the synchroniser R2W. -/
def State.rdSeen (s : State) : Nat := gray2bin s.cfg.W (s.wd.wqRgray.getLastD 0)

/-- The read cursor as the producer knows it (R91): the cursor itself in `sync_fifo`, the view in
`async_fifo`. -/
def State.producerView (s : State) : Nat :=
  match s.cfg.block with
  | .sync => s.rd.readCursor
  | .async => s.rdSeen

/-- The write cursor as the consumer knows it (R92). -/
def State.consumerView (s : State) : Nat :=
  match s.cfg.block with
  | .sync => s.wd.writeCursor
  | .async => s.wrSeen

/-- The source operand of a PUT (R57): the byte stream offered on `p_data`. -/
def State.source (s : State) : List Byte := s.pins.pData

/-- SSB's precondition on the source, "at least `requested_len` bytes" (R57, R91, R164). -/
def sourceSuffices (src : List Byte) (req : Nat) : Bool := decide (req ≤ src.length)

/-- The caller's destination after a GET delivered `out` (R92): its first bytes replaced, the rest untouched. -/
def destinationAfter (dest out : List Byte) : List Byte := out ++ dest.drop out.length

end Sys2Proof.Machine
end

