-- ==== Sys2Proof/Machine/Flags.lean ====
section
/-! DEFINITION. The conditions on the output ports (R19, R27, R28, R50, R51). None is stored (R19). -/

namespace Sys2Proof.Machine

/-- `empty` of `sync_fifo` (R19), from the true cursors. -/
def State.empty (s : State) : Bool := isEmpty s.cfg.W s.wd.writeCursor s.rd.readCursor

/-- `full` of `sync_fifo` (R19), from the true cursors. -/
def State.full (s : State) : Bool := isFull s.cfg.C s.cfg.W s.wd.writeCursor s.rd.readCursor

/-- `full_w` of `async_fifo` (R27), in the write domain. -/
def State.fullW (s : State) : Bool := isFull s.cfg.C s.cfg.W s.wd.writeCursor s.rdSeen

/-- `empty_r` of `async_fifo` (R27), in the read domain. -/
def State.emptyR (s : State) : Bool := isEmpty s.cfg.W s.wrSeen s.rd.readCursor

/-- `cap_ok` (R28). -/
def State.capOkOut (s : State) : Bool := capOk s.cfg.C s.cfg.W

/-- The producer's check of invariant 2, on its own cursor and the other as it knows it: `inv_ok` in
`sync_fifo`, `inv_ok_w` in `async_fifo` (R28). -/
def State.invOkW (s : State) : Bool := invOk s.cfg.C s.cfg.W s.wd.writeCursor s.producerView

/-- The consumer's check: `inv_ok` in `sync_fifo`, `inv_ok_r` in `async_fifo` (R28). -/
def State.invOkR (s : State) : Bool := invOk s.cfg.C s.cfg.W s.consumerView s.rd.readCursor

/-- Every `inv_ok` output of the block is 1 (R28). -/
def State.checksOk (s : State) : Bool := s.invOkW && s.invOkR

/-- Reset is not asserted: the Format R word is run (R54). -/
def State.resetReleased (s : State) : Bool := decide (decodeR s.pins.rstN = .error .run)

/-- `p_ready` (R50): a ring exists (R142), reset is released (R60), and no `put` is in flight (R63). -/
def State.pReady (s : State) : Bool :=
  decide (s.life = .running) && s.resetReleased && decide (s.wd.pPhase = .idle)

/-- `c_ready` (R50). -/
def State.cReady (s : State) : Bool :=
  decide (s.life = .running) && s.resetReleased && decide (s.rd.cPhase = .idle)

end Sys2Proof.Machine
end

