-- ==== Sys2Proof/Machine/Memory.lean ====
section
/-! DEFINITION. `storage` as plain data: one-byte reads and writes (R33), and the canonical form of the list. -/

namespace Sys2Proof.Machine

/-- The canonical form: offsets strictly rising. An unlisted offset has no stored value, so no entry can be
redundant, and two memories that hold the same bytes are the same list. -/
abbrev Memory.wf (m : Memory) : Prop := m.Pairwise (fun a b => a.1 < b.1)

/-- Every listed cell is one of `storage[0 .. C-1]` (R31). -/
abbrev Memory.within (C : Nat) (m : Memory) : Prop := ∀ c ∈ m, c.1 < C

/-- The byte a PUT has stored at an offset, if any. -/
def Memory.stored? (m : Memory) (off : Nat) : Option Byte :=
  match m with
  | [] => none
  | c :: rest => if c.1 = off then some c.2 else Memory.stored? rest off

/-- `MemRead(off, 1)` (R33): the stored byte, or the free value of a cell never written (R157). -/
def Memory.read (draw : Nat) (m : Memory) (off : Nat) : Byte :=
  (m.stored? off).getD (Config.freeByte draw off)

/-- `MemWrite(off, 1, v)` (R33). -/
def Memory.write (m : Memory) (off : Nat) (v : Byte) : Memory :=
  match m with
  | [] => [(off, v)]
  | c :: rest =>
    if off < c.1 then (off, v) :: c :: rest
    else if off = c.1 then (off, v) :: rest
    else c :: Memory.write rest off v

/-- The byte writes of one contiguous copy (R33, R91): `bytes[i]` to offset `off + i`. -/
def Memory.writeRun (m : Memory) (off : Nat) : List Byte → Memory
  | [] => m
  | b :: bs => Memory.writeRun (m.write off b) (off + 1) bs

/-- The byte reads of one contiguous copy (R33, R92): `len` bytes from offset `off` on. -/
def Memory.readRun (draw : Nat) (m : Memory) (off : Nat) : Nat → List Byte
  | 0 => []
  | len + 1 => m.read draw off :: Memory.readRun draw m (off + 1) len

/-- The split copy into storage (R91, R116): `l1` bytes from offset `off` on, then `l2` from offset 0 on. -/
def Memory.copyIn (m : Memory) (off l1 l2 : Nat) (src : List Byte) : Memory :=
  (m.writeRun off (src.take l1)).writeRun 0 ((src.drop l1).take l2)

/-- The split copy out of storage (R92, R122): `l1` bytes from offset `off` on, then `l2` from offset 0 on. -/
def Memory.copyOut (draw : Nat) (m : Memory) (off l1 l2 : Nat) : List Byte :=
  m.readRun draw off l1 ++ m.readRun draw 0 l2

end Sys2Proof.Machine
end

