-- ==== Sys2Proof/Machine/Ops.lean ====
section
/-! DEFINITION. The shared operations: the updates of State, the two core functions (R91, R92), construction
(R93, R139), and taking the one exception (R140 to R142). -/

namespace Sys2Proof.Machine

/-- The only way a step replaces the write domain. -/
def State.setWd (s : State) (wd : WriteDomain) : State := { s with wd := wd }

/-- The only way a step replaces the read domain. -/
def State.setRd (s : State) (rd : ReadDomain) : State := { s with rd := rd }

/-- The only way a step replaces `storage`. -/
def State.setStorage (s : State) (m : Memory) : State := { s with storage := m }

/-- The only way a step changes whether a ring exists. -/
def State.setLife (s : State) (l : Life) : State := { s with life := l }

/-- What PutCore returns (R91). -/
structure PutResult where
  storage : Memory
  writeCursor : Nat
  count : Nat
  deriving DecidableEq, Repr

/-- PutCore (R91). `rv` is the read cursor as the producer knows it. The writes come before the cursor
changes (BAR_P, R44). -/
def putCore (C W : Nat) (storage : Memory) (w rv : Nat) (src : List Byte) (req : Nat) : PutResult :=
  let n := clampPut C W req w rv
  { storage := storage.copyIn (index C w) (seg1 C w n) (seg2 C w n) src
    writeCursor := adv W w n
    count := n }

/-- What GetCore returns (R92). -/
structure GetResult where
  readCursor : Nat
  count : Nat
  out : List Byte
  deriving DecidableEq, Repr

/-- GetCore (R92). `wv` is the write cursor as the consumer knows it. The reads come before the cursor
changes (BAR_C, R43). -/
def getCore (C W draw : Nat) (storage : Memory) (wv r req : Nat) : GetResult :=
  let n := clampGet W req wv r
  { readCursor := adv W r n
    count := n
    out := storage.copyOut draw (index C r) (seg1 C r n) (seg2 C r n) }

/-- Construction of a ring (R93, R139): every register of both domains to its reset value (R25), `storage`
unspecified, which is a fresh draw of the free contents (R157). The reset level is still low. -/
def State.construct (s : State) : State :=
  { s with
    life := .held
    draw := s.draw + 1
    storage := []
    wd := .reset s.cfg.nSync
    rd := .reset s.cfg.nSync }

/-- Reset is released (R159, R160): a ring whose construction has succeeded starts to run. -/
def State.releaseReset (s : State) : State := if s.life = .held then s.setLife .running else s

/-- Taking the exception `InvalidCapacity` (R140 to R142): no ring exists, the offending capacity is recorded,
nothing is saved, and control goes nowhere. There is no return from it (R148). -/
def State.raiseInvalidCapacity (s : State) : State := s.setLife (.failed s.cfg.C)

end Sys2Proof.Machine
end

