-- ==== Sys2Proof/Machine/Sync.lean ====
section
/-! DEFINITION. PUT and GET of `sync_fifo` (spec/41_sync_fifo.md): one atomic transition each. -/

namespace Sys2Proof.Machine

/-- PUT as one transition (R94): `(storage, write_cursor, p_count) <- PutCore(...)`, everything else unchanged. -/
def State.putAtomic (s : State) (req : Nat) : State :=
  let r := putCore s.cfg.C s.cfg.W s.storage s.wd.writeCursor s.rd.readCursor s.source req
  (s.setStorage r.storage).setWd { s.wd with writeCursor := r.writeCursor, pReturn := some r.count }

/-- GET as one transition (R95): `(read_cursor, c_count, out) <- GetCore(...)`, everything else unchanged. -/
def State.getAtomic (s : State) (req : Nat) : State :=
  let r := getCore s.cfg.C s.cfg.W s.draw s.storage s.wd.writeCursor s.rd.readCursor req
  s.setRd { s.rd with
    readCursor := r.readCursor
    cReturn := some { count := r.count, data := r.out } }

end Sys2Proof.Machine
end

