-- ==== Sys2Proof/Machine/Async.lean ====
section
/-! DEFINITION. The steps of PROD, CONS and the two synchronisers of `async_fifo` (spec/42_async_fifo.md). -/

namespace Sys2Proof.Machine

/-- PUT step ACCEPT (R112, R114): latch the request and the handle on the source. -/
def State.acceptPut (s : State) (req : Nat) : State :=
  s.setWd { s.wd with pPhase := .sample, pReq := req, pOffer := s.source }

/-- PUT step SAMPLE (R115): the view is read once, and exactly `p_n` source bytes are taken (R57). -/
def State.samplePut (s : State) : State :=
  let n := clampPut s.cfg.C s.cfg.W s.wd.pReq s.wd.writeCursor s.rdSeen
  s.setWd { s.wd with
    pPhase := .copy
    pN := n
    pL1 := seg1 s.cfg.C s.wd.writeCursor n
    pL2 := seg2 s.cfg.C s.wd.writeCursor n
    pSrc := s.wd.pOffer.take n }

/-- PUT step COPY (R116): the `p_n` byte writes, as one step (R137). -/
def State.copyPut (s : State) : State :=
  (s.setStorage
      (s.storage.copyIn (index s.cfg.C s.wd.writeCursor) s.wd.pL1 s.wd.pL2 s.wd.pSrc)).setWd
    { s.wd with pPhase := .barrier }

/-- PUT step BARRIER (R117): `BAR_P`; no data changes. -/
def State.barrierPut (s : State) : State :=
  s.setWd { s.wd with pPhase := .advance, pLeft := s.wd.pN }

/-- PUT step ADV1 (R118): cursor and Gray image advance by one together. -/
def State.adv1Put (s : State) : State :=
  s.setWd { s.wd with
    writeCursor := adv s.cfg.W s.wd.writeCursor 1
    wgray := bin2gray (adv s.cfg.W s.wd.writeCursor 1)
    pLeft := s.wd.pLeft - 1 }

/-- PUT step FINISH (R114). -/
def State.finishPut (s : State) : State := s.setWd { s.wd with pPhase := .done }

/-- PUT step DONE (R125): the count is presented. -/
def State.donePut (s : State) : State :=
  s.setWd { s.wd with pPhase := .idle, pReturn := some s.wd.pN }

/-- The step of PROD that is enabled inside a transaction (the table of R114); none in phase `idle`. -/
def State.prodStep (s : State) : State :=
  match s.wd.pPhase with
  | .idle => s
  | .sample => s.samplePut
  | .copy => s.copyPut
  | .barrier => s.barrierPut
  | .advance => if 0 < s.wd.pLeft then s.adv1Put else s.finishPut
  | .done => s.donePut

/-- GET step ACCEPT (R112, R120). -/
def State.acceptGet (s : State) (req : Nat) : State :=
  s.setRd { s.rd with cPhase := .sample, cReq := req }

/-- GET step SAMPLE (R121): the view is read once. -/
def State.sampleGet (s : State) : State :=
  let n := clampGet s.cfg.W s.rd.cReq s.wrSeen s.rd.readCursor
  s.setRd { s.rd with
    cPhase := .copy
    cN := n
    cL1 := seg1 s.cfg.C s.rd.readCursor n
    cL2 := seg2 s.cfg.C s.rd.readCursor n }

/-- GET step COPY (R122): the `c_n` byte reads, as one step (R137). -/
def State.copyGet (s : State) : State :=
  s.setRd { s.rd with
    cPhase := .barrier
    cOut := s.storage.copyOut s.draw (index s.cfg.C s.rd.readCursor) s.rd.cL1 s.rd.cL2 }

/-- GET step BARRIER (R123): `BAR_C`; no data changes. -/
def State.barrierGet (s : State) : State :=
  s.setRd { s.rd with cPhase := .advance, cLeft := s.rd.cN }

/-- GET step ADV1 (R124): cursor and Gray image advance by one together. -/
def State.adv1Get (s : State) : State :=
  s.setRd { s.rd with
    readCursor := adv s.cfg.W s.rd.readCursor 1
    rgray := bin2gray (adv s.cfg.W s.rd.readCursor 1)
    cLeft := s.rd.cLeft - 1 }

/-- GET step FINISH (R120). -/
def State.finishGet (s : State) : State := s.setRd { s.rd with cPhase := .done }

/-- GET step DONE (R125): the count is presented and the bytes of `c_out` are delivered. -/
def State.doneGet (s : State) : State :=
  s.setRd { s.rd with
    cPhase := .idle
    cReturn := some { count := s.rd.cN, data := s.rd.cOut } }

/-- The step of CONS that is enabled inside a transaction (R120); none in phase `idle`. -/
def State.consStep (s : State) : State :=
  match s.rd.cPhase with
  | .idle => s
  | .sample => s.sampleGet
  | .copy => s.copyGet
  | .barrier => s.barrierGet
  | .advance => if 0 < s.rd.cLeft then s.adv1Get else s.finishGet
  | .done => s.doneGet

/-- One SYNC step of a chain (R126): stage 1 takes the sampled register, every other stage its predecessor. -/
def shiftIn (sampled : Nat) (stages : List Nat) : List Nat :=
  (sampled :: stages).dropLast

/-- SYNC of SW2R (R126): it samples `wgray` and writes the `rq` stages. -/
def State.syncW2R (s : State) : State :=
  s.setRd { s.rd with rqWgray := shiftIn s.wd.wgray s.rd.rqWgray }

/-- SYNC of SR2W (R126): it samples `rgray` and writes the `wq` stages. -/
def State.syncR2W (s : State) : State :=
  s.setWd { s.wd with wqRgray := shiftIn s.rd.rgray s.wd.wqRgray }

end Sys2Proof.Machine
end

