-- ==== Sys2Proof/Machine/Fifo.lean ====
section
/-! DEFINITION. The meanings of INIT, PUT, PNOP, GET and CNOP, in both blocks. -/

namespace Sys2Proof.Machine

/-- INIT (R93, R139). Invalid parameters raise `InvalidCapacity`; after that nothing else happens (R146). A
reset level that stays low is the same INIT going on, with every register at its reset value; a ring whose
reset has been released has no second INIT (R158). -/
def execInit (s : State) : Host.Outcome State Fault Refusal :=
  match s.life with
  | .awaiting =>
    if capOk s.cfg.C s.cfg.W then .next s.construct else .next s.raiseInvalidCapacity
  | .held => .next s
  | .running => .refused .resetMidRun
  | .failed _ => .next s

/-- PUT (R94, R113). In `async_fifo` this is the step ACCEPT; a word presented while a `put` is in flight
or while reset is still held has no effect (R60), nor has any command after a failed construction (R142). -/
def execPut (plen : Nat) (s : State) : Host.Outcome State Fault Refusal :=
  match s.life with
  | .failed _ => .next s
  | .awaiting => .refused .commandBeforeInit
  | .held => .next s
  | .running =>
    if s.wd.pPhase ≠ .idle then .next s
    else if ¬ s.invOkW then .fault .invariantViolated
    else if ¬ sourceSuffices s.source plen then .refused .sourceTooShort
    else match s.cfg.block with
      | .sync => .next (s.putAtomic plen)
      | .async => .next (s.acceptPut plen)

/-- PNOP (R96): "no state change, no result". -/
def execPnop (s : State) : Host.Outcome State Fault Refusal := .next s

/-- GET (R95, R119). In `async_fifo` this is the step ACCEPT; otherwise as PUT. -/
def execGet (clen : Nat) (s : State) : Host.Outcome State Fault Refusal :=
  match s.life with
  | .failed _ => .next s
  | .awaiting => .refused .commandBeforeInit
  | .held => .next s
  | .running =>
    if s.rd.cPhase ≠ .idle then .next s
    else if ¬ s.invOkR then .fault .invariantViolated
    else match s.cfg.block with
      | .sync => .next (s.getAtomic clen)
      | .async => .next (s.acceptGet clen)

/-- CNOP (R97): "no state change, no result". -/
def execCnop (s : State) : Host.Outcome State Fault Refusal := .next s

end Sys2Proof.Machine
end

