-- ==== Sys2Proof/Machine/Dispatch.lean ====
section
/-! DEFINITION. One arm per operation. -/

namespace Sys2Proof.Machine

/-- The meaning of an operation accepted on its port. -/
def exec (i : Instr) (s : State) : Host.Outcome State Fault Refusal :=
  match i with
  | .init => Sys2Proof.Machine.execInit s
  | .put plen => Sys2Proof.Machine.execPut plen s
  | .pnop => Sys2Proof.Machine.execPnop s
  | .get clen => Sys2Proof.Machine.execGet clen s
  | .cnop => Sys2Proof.Machine.execCnop s

end Sys2Proof.Machine
end

