-- ==== Sys2Proof/Machine/Schedule.lean ====
section
/-! DEFINITION. What a step adds around exec: the input ports of the step, the two ports of `sync_fifo` taken
together, and the agent of `async_fifo` whose turn it is. -/

namespace Sys2Proof.Machine

/-- The step when no frame is left, which is when HOST presents no further command (R138): a port in a
transaction goes on with it, the producer's first, and with both ports in `IDLE` no agent steps. Every other order
is a list of frames (assumption log 9). -/
def State.restFrame (s : State) : Frame :=
  { Frame.idle with
    agent := if s.wd.pPhase ≠ .idle then .prod else if s.rd.cPhase ≠ .idle then .cons else .host }

/-- The next step of the outside world (R110, R138). -/
def State.nextFrame (s : State) : Frame := s.inputs.head?.getD s.restFrame

/-- The input ports take the next frame's values, and the outputs `p_done` and `c_done` of the step before
fall: each is 1 only "in the step in which" its transaction returns (R50). -/
def State.latchFrame (s : State) : State :=
  { s with
    wd := { s.wd with pReturn := none }
    rd := { s.rd with cReturn := none }
    pins := s.nextFrame.pins
    inputs := s.inputs.tail }

/-- The operation on the producer port (R52). -/
def State.producerInstr (s : State) : Instr := decodeP s.cfg.W s.pins.pCmd

/-- The operation on the consumer port (R53). -/
def State.consumerInstr (s : State) : Instr := decodeC s.cfg.W s.pins.cCmd

/-- Both results of one step written together (R98): everything but the read domain from the producer's
transaction, the read domain from the consumer's. -/
def joinPorts (p c : Host.Outcome State Fault Refusal) : Host.Outcome State Fault Refusal :=
  match p, c with
  | .next sp, .next sc => .next (sp.setRd sc.rd)
  | .next _, .fault f => .fault f
  | .next _, .refused r => .refused r
  | .fault f, _ => .fault f
  | .refused r, _ => .refused r

/-- The operations on the two ports, both evaluated on the state before the step (R98, R146). -/
def bothPorts (s : State) : Host.Outcome State Fault Refusal :=
  joinPorts (exec s.producerInstr s) (exec s.consumerInstr s)

/-- One step of one agent of `async_fifo` (R110): a port in `IDLE` takes the word presented to it (R112), a
port in a transaction takes that transaction's next step (R114, R120). -/
def agentStep (a : Agent) (s : State) : Host.Outcome State Fault Refusal :=
  match a with
  | .host => .next s
  | .prod => if s.wd.pPhase = .idle then exec s.producerInstr s else .next s.prodStep
  | .cons => if s.rd.cPhase = .idle then exec s.consumerInstr s else .next s.consStep
  | .sw2r => .next s.syncW2R
  | .sr2w => .next s.syncR2W

/-- A step with reset released. A ring still held in reset does nothing of its own; portStep releases it before
it comes here. Before INIT the ports are the only thing a step could obey, and R159 lets no
command stand there; after a failed construction nothing happens (R142); a state with `inv_ok = 0` is a
fault (R153). -/
def runStep (a : Agent) (s : State) : Host.Outcome State Fault Refusal :=
  match s.life with
  | .awaiting => bothPorts s
  | .held => .next s
  | .failed _ => .next s
  | .running =>
    if ¬ s.checksOk then .fault .invariantViolated
    else match s.cfg.block with
      | .sync => bothPorts s
      | .async => agentStep a s

/-- A step on the ports as they stand. INIT overrides commands (R146). -/
def portStep (a : Agent) (s : State) : Host.Outcome State Fault Refusal :=
  match decodeR s.pins.rstN with
  | .ok i => exec i s
  | .error .run => runStep a s.releaseReset

/-- The frame in which the caller presents one word on `p_cmd` and offers as many source bytes as it asks
for (R57, R164), with the consumer port idle and the producer's turn. -/
def Frame.ofWord (L w : Nat) : Frame :=
  { agent := .prod
    pins := { rstN := 1, pCmd := w, pData := List.replicate (bitSlice L 1 w) 0, cCmd := 0 } }

end Sys2Proof.Machine
end

