-- ==== Sys2Proof/Machine/Step.lean ====
section
/-! DEFINITION. One step of the machine. -/

namespace Sys2Proof.Machine

/-- One step: take the next frame of inputs, then step on it (R90, R110). -/
def step (s : State) : Host.Outcome State Fault Refusal :=
  portStep s.nextFrame.agent s.latchFrame

/-- The state with a word presented on `p_cmd` at the next step (assumption log 6). -/
def State.withFetchWord (s : State) (nbits w : Nat) : State :=
  { s with inputs := Frame.ofWord s.cfg.W (w % 2 ^ nbits) :: s.inputs }

end Sys2Proof.Machine
end

