-- ==== Sys2Proof/Safety.lean ====
section
/-! DEFINITION. What holds of a safe run, in the terms the statements use: the legal parameters, the invariant
of each block, the byte streams accepted and delivered, and the runs. -/

namespace Sys2Proof.Machine

/-- The legal parameters (R1, R3, R6): `cap_ok(C, W)` and `N_SYNC >= 2`. -/
abbrev LegalConfig (cfg : Config) : Prop := capOk cfg.C cfg.W = true ∧ 2 ≤ cfg.nSync

/-! ### The invariant of `sync_fifo` -/

/-- What every state of a constructed `sync_fifo` satisfies: legal parameters, cursors of `W` bits, invariant 2
(R16), and a storage in canonical form inside `[0, C-1]`. -/
structure SyncInv (s : State) : Prop where
  legal : LegalConfig s.cfg
  block : s.cfg.block = .sync
  life : s.life = .running
  writeCursor_fits : fitsIn s.cfg.W s.wd.writeCursor = true
  readCursor_fits : fitsIn s.cfg.W s.rd.readCursor = true
  distance : cursorDist s.cfg.W s.wd.writeCursor s.rd.readCursor ≤ s.cfg.C
  pPhase : s.wd.pPhase = .idle
  cPhase : s.rd.cPhase = .idle
  storage_wf : s.storage.wf
  storage_within : s.storage.within s.cfg.C

/-! ### The end of a run -/

/-- A frame that presents a command: INIT, PUT or GET (R52, R53, R54). -/
def Frame.presentsCommand (f : Frame) : Bool :=
  decide (bitSlice 0 0 f.pins.rstN = 0) || decide (bitSlice 0 0 f.pins.pCmd = 1) ||
    decide (bitSlice 0 0 f.pins.cCmd = 1)

/-- The end of a run (R138): HOST presents no further command, and both ports are in `IDLE`. Steps of the
synchronisers may still come. -/
def State.runOver (s : State) : Bool :=
  s.inputs.all (fun f => !f.presentsCommand) && decide (s.wd.pPhase = .idle) && decide (s.rd.cPhase = .idle)

/-- The state after `k` steps, if none of them stops. -/
def runSteps : Nat → State → Option State
  | 0, s => some s
  | k + 1, s =>
    match step s with
    | .next t => runSteps k t
    | .fault _ => none
    | .refused _ => none

/-! ### The invariant of `async_fifo` -/

/-- The natural numbers of section 5 of spec/42_async_fifo.md, which are of the proof and not registers: the
totals `K` and `D` of ADV1 steps taken, and the totals `k1, k2, ..` and `d1, d2, ..` that the stages of the two
synchronisers hold, stage 1 first (R127). -/
structure History where
  K : Nat
  D : Nat
  ks : List Nat
  ds : List Nat
  deriving DecidableEq, Repr

/-- At reset all are 0 (R127). -/
def History.start (nSync : Nat) : History :=
  { K := 0, D := 0, ks := List.replicate nSync 0, ds := List.replicate nSync 0 }

/-- The total that `wr_seen` shows (`k2` of R127). -/
def History.kSeen (h : History) : Nat := h.ks.getLastD 0

/-- The total that `rd_seen` shows (`d2` of R127). -/
def History.dSeen (h : History) : Nat := h.ds.getLastD 0

/-- How the totals move with the step that follows `s` (R127): an ADV1 step counts one, a SYNC step shifts its
chain, no other step changes them. -/
def History.after (h : History) (s : State) : History :=
  match s.nextFrame.agent with
  | .host => h
  | .prod => if s.wd.pPhase = .advance ∧ 0 < s.wd.pLeft then { h with K := h.K + 1 } else h
  | .cons => if s.rd.cPhase = .advance ∧ 0 < s.rd.cLeft then { h with D := h.D + 1 } else h
  | .sw2r => { h with ks := shiftIn h.K h.ks }
  | .sr2w => { h with ds := shiftIn h.D h.ds }

/-- The Gray image of a total: what a register that counts to it shows (R20, R127). -/
def grayOf (W total : Nat) : Nat := bin2gray (total % 2 ^ W)

/-- The view law (R127): cursors, Gray registers and synchroniser stages hold the residues of the totals, and
along each chain the totals never increase. -/
structure ViewLaw (s : State) (h : History) : Prop where
  writeCursor : s.wd.writeCursor = h.K % 2 ^ s.cfg.W
  readCursor : s.rd.readCursor = h.D % 2 ^ s.cfg.W
  wgray : s.wd.wgray = grayOf s.cfg.W h.K
  rgray : s.rd.rgray = grayOf s.cfg.W h.D
  rqWgray : s.rd.rqWgray = h.ks.map (grayOf s.cfg.W)
  wqRgray : s.wd.wqRgray = h.ds.map (grayOf s.cfg.W)
  ks_length : h.ks.length = s.cfg.nSync
  ds_length : h.ds.length = s.cfg.nSync
  ks_sorted : (h.K :: h.ks).Pairwise (fun a b => b ≤ a)
  ds_sorted : (h.D :: h.ds).Pairwise (fun a b => b ≤ a)

/-- How many ADV1 steps the PUT in flight still owes, from its SAMPLE on (R114, R115). -/
def State.putOwes (s : State) : Nat :=
  match s.wd.pPhase with
  | .copy => s.wd.pN
  | .barrier => s.wd.pN
  | .advance => s.wd.pLeft
  | .idle => 0
  | .sample => 0
  | .done => 0

/-- How many ADV1 steps the GET in flight still owes, from its SAMPLE on (R120, R121). -/
def State.getOwes (s : State) : Nat :=
  match s.rd.cPhase with
  | .copy => s.rd.cN
  | .barrier => s.rd.cN
  | .advance => s.rd.cLeft
  | .idle => 0
  | .sample => 0
  | .done => 0

/-- How many bytes the GET in flight has read and not yet passed with its cursor: the ADV1 steps it still owes,
counted from its COPY on, when its bytes become part of OUT (R131; assumption log 21). -/
def State.getReadAhead (s : State) : Nat :=
  match s.rd.cPhase with
  | .barrier => s.rd.cN
  | .advance => s.rd.cLeft
  | .idle => 0
  | .sample => 0
  | .copy => 0
  | .done => 0

/-- The producer and consumer invariants (R128, R129), with what the transactions in flight still owe:
`d2 <= D`, `D + owed <= k2`, `k2 <= K`, `K + owed <= d2 + C`. -/
structure CountLaw (s : State) (h : History) : Prop where
  dSeen_le : h.dSeen ≤ h.D
  read_le : h.D + s.getOwes ≤ h.kSeen
  kSeen_le : h.kSeen ≤ h.K
  write_le : h.K + s.putOwes ≤ h.dSeen + s.cfg.C

/-- The latches of a PUT in flight are what its SAMPLE step computed (R23, R115). -/
def State.putLatched (s : State) : Prop :=
  match s.wd.pPhase with
  | .idle => True
  | .sample => s.wd.pReq ≤ s.wd.pOffer.length
  | .copy =>
    s.wd.pSrc.length = s.wd.pN ∧ s.wd.pN ≤ s.cfg.C ∧
      s.wd.pL1 = seg1 s.cfg.C s.wd.writeCursor s.wd.pN ∧
      s.wd.pL2 = seg2 s.cfg.C s.wd.writeCursor s.wd.pN
  | .barrier => s.wd.pSrc.length = s.wd.pN ∧ s.wd.pN ≤ s.cfg.C
  | .advance => s.wd.pSrc.length = s.wd.pN ∧ s.wd.pN ≤ s.cfg.C ∧ s.wd.pLeft ≤ s.wd.pN
  | .done => s.wd.pSrc.length = s.wd.pN ∧ s.wd.pN ≤ s.cfg.C

/-- The latches of a GET in flight are what its SAMPLE and COPY steps computed (R23, R121, R122). -/
def State.getLatched (s : State) : Prop :=
  match s.rd.cPhase with
  | .idle => True
  | .sample => True
  | .copy =>
    s.rd.cN ≤ s.cfg.C ∧
      s.rd.cL1 = seg1 s.cfg.C s.rd.readCursor s.rd.cN ∧
      s.rd.cL2 = seg2 s.cfg.C s.rd.readCursor s.rd.cN
  | .barrier => s.rd.cOut.length = s.rd.cN ∧ s.rd.cN ≤ s.cfg.C
  | .advance => s.rd.cOut.length = s.rd.cN ∧ s.rd.cN ≤ s.cfg.C ∧ s.rd.cLeft ≤ s.rd.cN
  | .done => s.rd.cOut.length = s.rd.cN ∧ s.rd.cN ≤ s.cfg.C

/-- What every state of a constructed `async_fifo` satisfies with the totals `h` of its run. -/
structure AsyncInv (s : State) (h : History) : Prop where
  legal : LegalConfig s.cfg
  block : s.cfg.block = .async
  life : s.life = .running
  view : ViewLaw s h
  counts : CountLaw s h
  put : s.putLatched
  get : s.getLatched
  storage_wf : s.storage.wf
  storage_within : s.storage.within s.cfg.C

/-- A settled state (R132): both ports idle, and every stage shows the present Gray register. -/
structure Settled (s : State) : Prop where
  pPhase : s.wd.pPhase = .idle
  cPhase : s.rd.cPhase = .idle
  rqWgray : s.rd.rqWgray = List.replicate s.cfg.nSync s.wd.wgray
  wqRgray : s.wd.wqRgray = List.replicate s.cfg.nSync s.rd.rgray

/-! ### Transactions of `async_fifo` among the steps of all agents -/

/-- What a PUT of `async_fifo` was accepted on (R112, R113). -/
structure PutTxn where
  storage : Memory
  writeCursor : Nat
  source : List Byte
  req : Nat
  deriving DecidableEq, Repr

/-- What PutCore gives for it, with the view `rv` (R113). -/
def PutTxn.result (q : PutTxn) (cfg : Config) (rv : Nat) : PutResult :=
  putCore cfg.C cfg.W q.storage q.writeCursor rv q.source q.req

/-- How far the PUT has come in `s`, phase by phase, on its way to `q.result` with the view `rv` that its SAMPLE
read (R113 to R118, R125): nothing of the result before COPY, all of its storage from then on, one count of its
cursor with each ADV1, and its count at the end. Phase `sample` does not know the view yet. -/
def PutTxn.tracks (q : PutTxn) (rv : Nat) (s : State) : Prop :=
  match s.wd.pPhase with
  | .sample =>
    s.storage = q.storage ∧ s.wd.writeCursor = q.writeCursor ∧ s.wd.pReq = q.req ∧ s.wd.pOffer = q.source
  | .copy =>
    s.storage = q.storage ∧ s.wd.writeCursor = q.writeCursor ∧
      s.wd.pN = (q.result s.cfg rv).count ∧
      s.wd.pL1 = seg1 s.cfg.C q.writeCursor (q.result s.cfg rv).count ∧
      s.wd.pL2 = seg2 s.cfg.C q.writeCursor (q.result s.cfg rv).count ∧
      s.wd.pSrc = q.source.take (q.result s.cfg rv).count
  | .barrier =>
    s.storage = (q.result s.cfg rv).storage ∧ s.wd.writeCursor = q.writeCursor ∧
      s.wd.pN = (q.result s.cfg rv).count
  | .advance =>
    s.storage = (q.result s.cfg rv).storage ∧ s.wd.pN = (q.result s.cfg rv).count ∧
      s.wd.pLeft ≤ (q.result s.cfg rv).count ∧
      s.wd.writeCursor = adv s.cfg.W q.writeCursor ((q.result s.cfg rv).count - s.wd.pLeft)
  | .done =>
    s.storage = (q.result s.cfg rv).storage ∧ s.wd.pN = (q.result s.cfg rv).count ∧
      s.wd.writeCursor = (q.result s.cfg rv).writeCursor
  | .idle =>
    s.storage = (q.result s.cfg rv).storage ∧ s.wd.writeCursor = (q.result s.cfg rv).writeCursor ∧
      s.wd.pReturn = some (q.result s.cfg rv).count

/-- What a GET of `async_fifo` was accepted on (R112, R119). -/
structure GetTxn where
  readCursor : Nat
  req : Nat
  deriving DecidableEq, Repr

/-- What GetCore gives for it, with the view `wv` that its SAMPLE read and the storage `m` at its COPY (R119). -/
def GetTxn.result (q : GetTxn) (cfg : Config) (draw wv : Nat) (m : Memory) : GetResult :=
  getCore cfg.C cfg.W draw m wv q.readCursor q.req

/-- How far the GET has come in `s`, phase by phase, on its way to `q.result` (R119 to R125). Phase `sample` does
not know the view yet, and phase `copy` not the storage. -/
def GetTxn.tracks (q : GetTxn) (wv : Nat) (m : Memory) (s : State) : Prop :=
  match s.rd.cPhase with
  | .sample => s.rd.readCursor = q.readCursor ∧ s.rd.cReq = q.req
  | .copy =>
    s.rd.readCursor = q.readCursor ∧ s.rd.cN = (q.result s.cfg s.draw wv m).count ∧
      s.rd.cL1 = seg1 s.cfg.C q.readCursor (q.result s.cfg s.draw wv m).count ∧
      s.rd.cL2 = seg2 s.cfg.C q.readCursor (q.result s.cfg s.draw wv m).count
  | .barrier =>
    s.rd.readCursor = q.readCursor ∧ s.rd.cN = (q.result s.cfg s.draw wv m).count ∧
      s.rd.cOut = (q.result s.cfg s.draw wv m).out
  | .advance =>
    s.rd.cN = (q.result s.cfg s.draw wv m).count ∧ s.rd.cOut = (q.result s.cfg s.draw wv m).out ∧
      s.rd.cLeft ≤ (q.result s.cfg s.draw wv m).count ∧
      s.rd.readCursor = adv s.cfg.W q.readCursor ((q.result s.cfg s.draw wv m).count - s.rd.cLeft)
  | .done =>
    s.rd.cN = (q.result s.cfg s.draw wv m).count ∧ s.rd.cOut = (q.result s.cfg s.draw wv m).out ∧
      s.rd.readCursor = (q.result s.cfg s.draw wv m).readCursor
  | .idle =>
    s.rd.readCursor = (q.result s.cfg s.draw wv m).readCursor ∧
      s.rd.cReturn = some
        { count := (q.result s.cfg s.draw wv m).count, data := (q.result s.cfg s.draw wv m).out }

/-- The step of an agent on a transaction in flight or on a synchroniser, without the ports (R114, R120, R126). -/
def Agent.move (a : Agent) (s : State) : State :=
  match a with
  | .host => s
  | .prod => s.prodStep
  | .cons => s.consStep
  | .sw2r => s.syncW2R
  | .sr2w => s.syncR2W

/-- The steps of a schedule, in order (R110). -/
def runAgents (schedule : List Agent) (s : State) : State :=
  schedule.foldl (fun u a => a.move u) s

/-! ### Streams and runs -/

/-- The bytes accepted by all PUTs so far and the bytes read by all GETs so far, in order (`IN` and `OUT` of
R106 and R131). They belong to the statement, not to the hardware. -/
structure Streams where
  accepted : List Byte
  delivered : List Byte
  deriving DecidableEq, Repr

/-- The source bytes that the PUT step from `s` to `s'` took: in `sync_fifo` the first `n` of the stream (R106),
in `async_fifo` `p_src` at SAMPLE (R131). -/
def bytesTaken (s s' : State) : List Byte :=
  match s.cfg.block with
  | .sync => s'.source.take (s'.wd.pReturn.getD 0)
  | .async => if s.wd.pPhase = .sample ∧ s'.wd.pPhase = .copy then s'.wd.pSrc else []

/-- The bytes that the GET step from `s` to `s'` read: in `sync_fifo` those delivered (R106), in `async_fifo`
`c_out` at COPY (R131). -/
def bytesRead (s s' : State) : List Byte :=
  match s.cfg.block with
  | .sync => (s'.rd.cReturn.map GetReturn.data).getD []
  | .async => if s.rd.cPhase = .copy ∧ s'.rd.cPhase = .barrier then s'.rd.cOut else []

/-- The streams after the step from `s` to `s'`. -/
def Streams.after (g : Streams) (s s' : State) : Streams :=
  { accepted := g.accepted ++ bytesTaken s s', delivered := g.delivered ++ bytesRead s s' }

/-- How many bytes the PUT in flight has stored and not yet passed with its cursor, from its COPY on (R116, R118). -/
def State.putStored (s : State) : Nat :=
  match s.wd.pPhase with
  | .barrier => s.wd.pN
  | .advance => s.wd.pLeft
  | .idle => 0
  | .sample => 0
  | .copy => 0
  | .done => 0

/-- Every position from the read cursor on that a PUT has stored, queued or about to be, holds a stored byte (R107). -/
def QueuedStored (s : State) : Prop :=
  ∀ j : Nat, j < cursorDist s.cfg.W s.wd.writeCursor s.rd.readCursor + s.putStored →
    (s.storage.stored? (index s.cfg.C ((s.rd.readCursor + j) % 2 ^ s.cfg.W))).isSome = true

/-- The clauses of the FIFO law of `sync_fifo` (R106), as a relation of the state and the streams. -/
structure SyncFifo (s : State) (g : Streams) : Prop where
  inOrder : g.delivered <+: g.accepted
  writeCursor : g.accepted.length % 2 ^ s.cfg.W = s.wd.writeCursor
  readCursor : g.delivered.length % 2 ^ s.cfg.W = s.rd.readCursor
  difference : g.accepted.length - g.delivered.length = cursorDist s.cfg.W s.wd.writeCursor s.rd.readCursor
  stored : ∀ k : Nat, g.delivered.length ≤ k → k < g.accepted.length →
    s.storage.stored? (index s.cfg.C (k % 2 ^ s.cfg.W)) = g.accepted[k]?

/-- The clauses of the FIFO law of `async_fifo` (R131), as a relation of the state, the streams and the totals: the
order, both lengths, and the bytes of the positions stored and of those about to be. -/
structure AsyncFifo (s : State) (g : Streams) (h : History) : Prop where
  inOrder : g.delivered <+: g.accepted
  accepted_length : g.accepted.length = h.K + s.putOwes
  delivered_length : g.delivered.length = h.D + s.getReadAhead
  stored : ∀ k : Nat, h.D ≤ k → k < h.K + s.putStored →
    s.storage.stored? (index s.cfg.C (k % 2 ^ s.cfg.W)) = g.accepted[k]?
  copying : s.wd.pPhase = .copy → g.accepted.drop h.K = s.wd.pSrc

/-- The states of the runs from construction with parameters `cfg` on the inputs `inputs`, with the streams and the
totals so far. Every schedule and every sequence of commands is some `inputs`. -/
inductive Reachable (cfg : Config) (inputs : List Frame) : State → Streams → History → Prop where
  | built :
      Reachable cfg inputs (State.built cfg inputs) { accepted := [], delivered := [] } (.start cfg.nSync)
  | step {s s' : State} {g : Streams} {h : History} :
      Reachable cfg inputs s g h → Machine.step s = .next s' →
        Reachable cfg inputs s' (g.after s s') (h.after s)

/-- Repeat a step of one port (`n` steps of PROD or CONS with no other agent between). -/
def repeatStep (f : State → State) : Nat → State → State
  | 0, s => s
  | n + 1, s => repeatStep f n (f s)

end Sys2Proof.Machine
end

