-- ==== Sys2Proof/Certificates/Slice0/Obligations.lean ====
section
/-! DEFINITION. The statements about the model, file by file of the spec. -/

open Sys2Proof Sys2Proof.Machine

/-! ### ring_buffer_indexer -/

/-- R65, R66: the power-of-two check in its mathematical form, the usual bit formula for it, the whole
construction check, and `log2c`. -/
def Obligations.CapacityCheckIsPowerOfTwoBelowRange : Prop :=
  (∀ C : Nat, isPow2 C = true ↔ 0 < C ∧ ∃ k : Nat, C = 2 ^ k) ∧
  (∀ C : Nat, isPow2 C = true ↔ C ≠ 0 ∧ C &&& (C - 1) = 0) ∧
  (∀ C W : Nat, capOk C W = true ↔ (0 < C ∧ ∃ k : Nat, C = 2 ^ k) ∧ C < 2 ^ W) ∧
  (∀ C : Nat, isPow2 C = true → C = 2 ^ log2c C)

/-- R78 (and R68): masking is the remainder, is a valid offset, and commutes with the wrap of the cursor. -/
def Obligations.IndexIsRemainderAndCommutesWithWrap : Prop :=
  ∀ C W p : Nat, capOk C W = true → p < 2 ^ W →
    index C p = p % C ∧ index C p < C ∧
    ∀ k : Nat, index C ((p + k) % 2 ^ W) = (index C p + k) % C

/-- R79: the distance survives the overflow of the cursors. -/
def Obligations.DistanceSurvivesCursorOverflow : Prop :=
  ∀ C W E D : Nat, capOk C W = true → D ≤ E → E - D ≤ C →
    cursorDist W (E % 2 ^ W) (D % 2 ^ W) = E - D

/-- R80: advances by a clamped count keep invariant 2, on either side and on both at once. -/
def Obligations.AdvancesKeepInvariantTwo : Prop :=
  ∀ C W w r n m : Nat, capOk C W = true → w < 2 ^ W → r < 2 ^ W → invOk C W w r = true →
    n ≤ free C W w r → m ≤ queued W w r →
    (cursorDist W (adv W w n) r = cursorDist W w r + n ∧ cursorDist W w r + n ≤ C) ∧
    cursorDist W w (adv W r m) = cursorDist W w r - m ∧
    (cursorDist W (adv W w n) (adv W r m) = cursorDist W w r + n - m ∧ cursorDist W w r + n - m ≤ C)

/-- R81: the split copy never overruns: the two lengths, where the second starts and ends, and that the cells
of a transfer are different cells in the order first segment, second segment. -/
def Obligations.SplitNeverOverruns : Prop :=
  ∀ C W pos n : Nat, capOk C W = true → pos < 2 ^ W → n ≤ C →
    seg1 C pos n + seg2 C pos n = n ∧
    index C pos + seg1 C pos n ≤ C ∧
    (0 < seg2 C pos n → index C pos + seg1 C pos n = C) ∧
    seg2 C pos n ≤ index C pos ∧
    (∀ i j : Nat, i < n → j < n →
      index C ((pos + i) % 2 ^ W) = index C ((pos + j) % 2 ^ W) → i = j) ∧
    (∀ i : Nat, i < n → index C ((pos + i) % 2 ^ W) =
      if i < seg1 C pos n then index C pos + i else i - seg1 C pos n)

/-- R88: how wide every result is, on legal parameters: an offset has `A` bits, a distance and an advanced cursor
`W`, and the counts and lengths are in `[0, C]`, which `A + 1 <= W` bits hold, however large the request. -/
def Obligations.IndexerResultsFitTheirWidths : Prop :=
  ∀ C W : Nat, capOk C W = true →
    (∀ p : Nat, p < 2 ^ W → index C p < 2 ^ offsetWidth C) ∧
    (∀ a b : Nat, cursorDist W a b < 2 ^ W ∧ adv W a b < 2 ^ W) ∧
    (∀ w r req : Nat, invOk C W w r = true →
      queued W w r ≤ C ∧ free C W w r ≤ C ∧ clampPut C W req w r ≤ C ∧ clampGet W req w r ≤ C) ∧
    (∀ pos n : Nat, n ≤ C → seg1 C pos n ≤ C ∧ seg2 C pos n ≤ C) ∧
    (∀ n : Nat, n ≤ C → n < 2 ^ countWidth C) ∧
    C = 2 ^ offsetWidth C ∧ countWidth C = offsetWidth C + 1 ∧ countWidth C ≤ W

/-- R84: the two Gray functions are inverse bijections of the `W`-bit values. -/
def Obligations.GrayCodeRoundTrip : Prop :=
  ∀ W v : Nat, v < 2 ^ W →
    bin2gray v < 2 ^ W ∧ gray2bin W v < 2 ^ W ∧
    gray2bin W (bin2gray v) = v ∧ bin2gray (gray2bin W v) = v

/-- R85: a unit step changes exactly one bit of the Gray image, number `min(t, W-1)` with `t` the number of
trailing ones, also at the wrap. -/
def Obligations.GrayUnitStepChangesOneBit : Prop :=
  ∀ W b : Nat, 0 < W → b < 2 ^ W →
    ∃ t : Nat, (∀ i : Nat, i < t → b.testBit i = true) ∧ b.testBit t = false ∧
      bin2gray b ^^^ bin2gray ((b + 1) % 2 ^ W) = 2 ^ min t (W - 1)

/-- The example of R86: with `W = 3` the step from 1 to 3 changes two bits of the Gray image, and the two mixtures
decode to 0 and 2, values that are neither the old nor the new one. -/
def Obligations.GrayJumpMixesOldAndNewBits : Prop :=
  bin2gray 1 = 1 ∧ bin2gray 3 = 2 ∧ gray2bin 3 0 = 0 ∧ gray2bin 3 3 = 2

/-! ### Encoding -/

/-- Every well-formed operation decodes, on its own port, from the word its encoder gives (R52 to R56). -/
def Obligations.DecodeOfEncodeIsTheInstruction : Prop :=
  ∀ (L : Nat) (i : Instr), i.wf L = true →
    decode L i.port (encode i) = .ok i ∧ encode i < 2 ^ portWidth L i.port

/-- Every word of every port has its one meaning: the opcode bit selects, the length field is read unsigned, and
re-encoding a PUT or GET word gives the word back (R52, R53, R54, R55, R59). -/
def Obligations.EveryWordHasItsMeaning : Prop :=
  ∀ L w : Nat, w < 2 ^ (L + 1) →
    (w % 2 = 1 → decode L .producer w = .ok (.put (w / 2)) ∧ decode L .consumer w = .ok (.get (w / 2)) ∧
      w / 2 < 2 ^ L ∧ encode (.put (w / 2)) = w ∧ encode (.get (w / 2)) = w) ∧
    (w % 2 = 0 → decode L .producer w = .ok .pnop ∧ decode L .consumer w = .ok .cnop) ∧
    decode L .reset 0 = .ok .init ∧ decode L .reset 1 = .error .run

/-- The worked encodings of R56. -/
def Obligations.SpecsWorkedEncodingsDecode : Prop :=
  decode 4 .producer 0b01011 = .ok (.put 5) ∧ decode 4 .consumer 0b01101 = .ok (.get 6) ∧
  decode 4 .producer 0b00000 = .ok .pnop ∧ decode 4 .consumer 0b00000 = .ok .cnop ∧
  decode 32 .producer 0x00000001B = .ok (.put 13) ∧
  decode 32 .consumer 0x1FFFFFFFF = .ok (.get (2 ^ 32 - 1)) ∧
  decode 4 .reset 0 = .ok .init

/-! ### Construction and reset -/

/-- R25, with the frame of INIT: on legal parameters INIT completes, and the ring it leaves has zeroed cursors,
zeroed Gray registers and stages, idle phases, no stored byte, and the reset conditions. That an unspecified cell is
one with no stored byte (assumption log 4), and that reset is still held after the step (assumption log 7), are the
model's readings. -/
def Obligations.InitConstructsAnEmptyRing : Prop :=
  ∀ s : State, s.life = .awaiting → capOk s.cfg.C s.cfg.W = true →
    ∃ t : State, exec .init s = .next t ∧ t.life = .held ∧
      t.wd.writeCursor = 0 ∧ t.rd.readCursor = 0 ∧ t.wd.wgray = 0 ∧ t.rd.rgray = 0 ∧
      t.rd.rqWgray = List.replicate s.cfg.nSync 0 ∧ t.wd.wqRgray = List.replicate s.cfg.nSync 0 ∧
      t.wrSeen = 0 ∧ t.rdSeen = 0 ∧
      t.wd.pPhase = .idle ∧ t.rd.cPhase = .idle ∧ (∀ off : Nat, t.storage.stored? off = none) ∧
      t.empty = true ∧ t.full = false ∧ t.emptyR = true ∧ t.fullW = false ∧ t.checksOk = true ∧
      t.capOkOut = true ∧ t.cfg = s.cfg ∧ t.pins = s.pins ∧ t.inputs = s.inputs

/-- INIT in both blocks, then release of reset, is the state a run starts from, whatever input follows
(R155, R159, R160). That reset has these parameters is the model's choice for State.reset (assumption log 1). -/
def Obligations.ReleasedConstructionIsTheStartOfARun : Prop :=
  (∀ (cfg : Config) (inputs : List Frame), capOk cfg.C cfg.W = true →
    ∃ t : State, exec .init (State.unbuilt cfg inputs) = .next t ∧
      t.releaseReset = State.built cfg inputs) ∧
  State.reset = State.built Config.reference [] ∧ LegalConfig Config.reference

/-- Invalid parameters (R140, R141, R142): INIT takes the exception, only the offending capacity is recorded, and
from then on no step does anything and no port is ever ready. That the exception is a next state and no stop is
the model's reading (assumption log 5). The ready outputs (R50, R60, R63): a port is ready exactly on a running ring
with reset released and no transaction in flight on it. -/
def Obligations.InvalidCapacityIsFatalToConstruction : Prop :=
  (∀ s : State, s.life = .awaiting → capOk s.cfg.C s.cfg.W = false →
    exec .init s = .next { s with life := .failed s.cfg.C }) ∧
  (∀ (s : State) (c : Nat), s.life = .failed c →
    step s = .next s.latchFrame ∧ s.latchFrame.life = .failed c ∧
    s.latchFrame.pReady = false ∧ s.latchFrame.cReady = false) ∧
  (∀ s : State,
    (s.pReady = true ↔ s.life = .running ∧ s.pins.rstN % 2 = 1 ∧ s.wd.pPhase = .idle) ∧
    (s.cReady = true ↔ s.life = .running ∧ s.pins.rstN % 2 = 1 ∧ s.rd.cPhase = .idle))

/-- R146 (2), R158: reset asserted overrides the command words; held, it leaves the ring as it is; asserted on a
ring that runs, it has no meaning and the input is refused. That a held level is one INIT is the model's reading
(assumption log 7). -/
def Obligations.ResetOverridesCommandWords : Prop :=
  ∀ s : State, s.nextFrame.pins.rstN % 2 = 0 →
    step s = exec .init s.latchFrame ∧
    (s.life = .held → step s = .next s.latchFrame) ∧
    (s.life = .running → step s = .refused .resetMidRun)

/-- R159: no PUT or GET may be presented before INIT; such an input is refused. -/
def Obligations.CommandBeforeInitIsRefused : Prop :=
  ∀ (s : State) (n : Nat), s.life = .awaiting →
    exec (.put n) s = .refused .commandBeforeInit ∧ exec (.get n) s = .refused .commandBeforeInit

/-- No operation and no step changes the parameters (R11, R109). -/
def Obligations.ParametersNeverChange : Prop :=
  (∀ (i : Instr) (s t : State), exec i s = .next t → t.cfg = s.cfg) ∧
  (∀ s t : State, step s = .next t → t.cfg = s.cfg)

/-! ### sync_fifo -/

/-- R94, R91: PUT in `sync_fifo` completes; it stores exactly the first `n = min(req, free)` source bytes at the
cells `index(w + i)`, advances the write cursor by `n`, returns `n`, and changes nothing else. -/
def Obligations.SyncPutResult : Prop :=
  ∀ (s : State) (req : Nat), SyncInv s → req ≤ s.source.length →
    let n := min req (s.cfg.C - cursorDist s.cfg.W s.wd.writeCursor s.rd.readCursor)
    let cell := fun i : Nat => index s.cfg.C ((s.wd.writeCursor + i) % 2 ^ s.cfg.W)
    ∃ (m : Memory) (t : State), exec (.put req) s = .next t ∧
      t = (s.setStorage m).setWd
        { s.wd with writeCursor := (s.wd.writeCursor + n) % 2 ^ s.cfg.W, pReturn := some n } ∧
      (∀ i : Nat, i < n → m.stored? (cell i) = s.source[i]?) ∧
      (∀ off : Nat, (∀ i : Nat, i < n → off ≠ cell i) →
        m.stored? off = s.storage.stored? off ∧ m.read s.draw off = s.storage.read s.draw off) ∧
      (0 < n → t.empty = false) ∧
      (n = s.cfg.C - cursorDist s.cfg.W s.wd.writeCursor s.rd.readCursor → t.full = true)

/-- R95, R92: GET in `sync_fifo` completes; it delivers the `n = min(req, queued)` bytes at the cells
`index(r + i)`, advances the read cursor by `n`, returns `n`, and changes nothing else, storage included. -/
def Obligations.SyncGetResult : Prop :=
  ∀ (s : State) (req : Nat), SyncInv s →
    let n := min req (cursorDist s.cfg.W s.wd.writeCursor s.rd.readCursor)
    ∃ (out : List Byte) (t : State), exec (.get req) s = .next t ∧
      t = s.setRd
        { s.rd with readCursor := (s.rd.readCursor + n) % 2 ^ s.cfg.W,
                    cReturn := some { count := n, data := out } } ∧
      out.length = n ∧
      (∀ i : Nat, i < n → out[i]? =
        some (s.storage.read s.draw (index s.cfg.C ((s.rd.readCursor + i) % 2 ^ s.cfg.W)))) ∧
      (0 < n → t.full = false) ∧
      (n = cursorDist s.cfg.W s.wd.writeCursor s.rd.readCursor → t.empty = true)

/-- R96, R97: a word whose bit 0 is clear is PNOP on the producer port and CNOP on the consumer port, whatever its
length field; PNOP and CNOP complete in every state and change nothing, `p_done` and `c_done` included. -/
def Obligations.IdleWordsChangeNothing : Prop :=
  (∀ L w : Nat, w % 2 = 0 → decodeP L w = .pnop ∧ decodeC L w = .cnop) ∧
  ∀ s : State, exec .pnop s = .next s ∧ exec .cnop s = .next s

/-- R98: a PUT and a GET of one step are both evaluated on the state before the step, then both results are
written; invariant 2 holds afterwards and the cells written and read are disjoint. -/
def Obligations.SameStepPutAndGetUseTheOldState : Prop :=
  ∀ (s : State) (plen clen : Nat), SyncInv s → s.nextFrame.pins.rstN % 2 = 1 →
    decodeP s.cfg.W s.nextFrame.pins.pCmd = .put plen →
    decodeC s.cfg.W s.nextFrame.pins.cCmd = .get clen →
    plen ≤ s.nextFrame.pins.pData.length →
    let p := putCore s.cfg.C s.cfg.W s.storage s.wd.writeCursor s.rd.readCursor s.nextFrame.pins.pData plen
    let g := getCore s.cfg.C s.cfg.W s.draw s.storage s.wd.writeCursor s.rd.readCursor clen
    ∃ t : State, step s = .next t ∧
      t = { s with
        storage := p.storage
        wd := { s.wd with writeCursor := p.writeCursor, pReturn := some p.count }
        rd := { s.rd with
          readCursor := g.readCursor
          cReturn := some { count := g.count, data := g.out } }
        pins := s.nextFrame.pins
        inputs := s.inputs.tail } ∧
      cursorDist t.cfg.W t.wd.writeCursor t.rd.readCursor ≤ t.cfg.C ∧
      (∀ i j : Nat, i < p.count → j < g.count →
        index s.cfg.C ((s.wd.writeCursor + i) % 2 ^ s.cfg.W) ≠
          index s.cfg.C ((s.rd.readCursor + j) % 2 ^ s.cfg.W))

/-- R94, R164 (U4 of 93_implementation_defined.md): a PUT whose source is shorter than the request is not in the
input language and is refused. -/
def Obligations.ShortSourceIsRefused : Prop :=
  ∀ (s : State) (req : Nat), s.life = .running → s.wd.pPhase = .idle → s.invOkW = true →
    s.source.length < req → exec (.put req) s = .refused .sourceTooShort

/-- R153: on a running ring whose check of invariant 2 fails, every step with reset released records a fault, whatever
the words on the ports. PUT and GET on an idle port do so by themselves on the check of their own port, which in
`async_fifo` is the one of their own domain; that each looks at its own check, and that an idle word and a word on a
busy port have no effect there as anywhere, is the model's reading (assumption log 15). -/
def Obligations.BrokenInvariantIsAFault : Prop :=
  ∀ s : State, s.life = .running →
    (s.checksOk = false → s.nextFrame.pins.rstN % 2 = 1 → step s = .fault .invariantViolated) ∧
    (∀ n : Nat, s.invOkW = false → s.wd.pPhase = .idle → exec (.put n) s = .fault .invariantViolated) ∧
    (∀ n : Nat, s.invOkR = false → s.rd.cPhase = .idle → exec (.get n) s = .fault .invariantViolated)

/-- R99, for both blocks: a GET of any length on a ring just constructed returns 0 and delivers no byte; in
`async_fifo` when its transaction has run its five further steps. -/
def Obligations.GetOnAFreshRingReturnsZero : Prop :=
  ∀ (cfg : Config) (inputs : List Frame) (req : Nat), capOk cfg.C cfg.W = true →
    (cfg.block = .sync → ∃ t : State, exec (.get req) (State.built cfg inputs) = .next t ∧
      t.rd.cReturn = some { count := 0, data := [] } ∧ t.rd.readCursor = 0) ∧
    (cfg.block = .async → ∃ t : State, exec (.get req) (State.built cfg inputs) = .next t ∧
      (repeatStep State.consStep 5 t).rd.cReturn = some { count := 0, data := [] } ∧
      (repeatStep State.consStep 5 t).rd.readCursor = 0 ∧ (repeatStep State.consStep 5 t).rd.cPhase = .idle)

/-- R101 and R102, with the premise of 90_conflicts.md C10 that the ring is empty before the PUT: the PUT returns
`min(req, C)`, and a GET that follows returns the bytes accepted, in order, as many as it asks for. -/
def Obligations.RoundTripThroughAnEmptyRing : Prop :=
  ∀ (s : State) (req back : Nat), SyncInv s → s.wd.writeCursor = s.rd.readCursor →
    req ≤ s.source.length →
    let n := min req s.cfg.C
    ∃ t u : State, exec (.put req) s = .next t ∧ t.wd.pReturn = some n ∧
      (n = s.cfg.C → t.full = true) ∧
      exec (.get back) t = .next u ∧
      u.rd.cReturn = some { count := min back n, data := s.source.take (min back n) }

/-- R103: a GET on an empty ring returns 0, delivers no byte, moves no cursor, and leaves the caller's destination
untouched. -/
def Obligations.GetOnAnEmptyRingLeavesTheDestination : Prop :=
  ∀ (s : State) (req : Nat), SyncInv s → s.wd.writeCursor = s.rd.readCursor →
    ∃ t : State, exec (.get req) s = .next t ∧
      t = s.setRd { s.rd with cReturn := some { count := 0, data := [] } } ∧
      ∀ dest : List Byte, destinationAfter dest ((t.rd.cReturn.map GetReturn.data).getD []) = dest

/-- R104: the wrap-around scenario of SSB. With capacity 8 and both cursors at 5, a PUT of six bytes `A..F` over the
cells `1 2 3 4 5` puts `A B C` at offsets 5 to 7 and `D E F` at offsets 0 to 2, and keeps offsets 3 and 4. -/
def Obligations.WrapAroundScenarioSplitsThreeAndThree : Prop :=
  ∀ s : State, s.cfg = { block := .sync, C := 8, W := 4, nSync := 2 } → s.life = .running →
    s.wd = { WriteDomain.reset 2 with writeCursor := 5 } → s.rd = { ReadDomain.reset 2 with readCursor := 5 } →
    s.storage = [(0, 0x31), (1, 0x32), (2, 0x33), (3, 0x34), (4, 0x35)] →
    s.pins.pData = [0x41, 0x42, 0x43, 0x44, 0x45, 0x46] →
    ∃ t : State, exec (.put 6) s = .next t ∧ t.wd.pReturn = some 6 ∧ t.wd.writeCursor = 11 ∧
      t.storage = [(0, 0x44), (1, 0x45), (2, 0x46), (3, 0x34), (4, 0x35), (5, 0x41), (6, 0x42), (7, 0x43)]

/-- The invariant of `sync_fifo` holds of a ring just constructed, for all legal parameters. -/
def Obligations.SyncInvariantHoldsAfterReset : Prop :=
  ∀ (cfg : Config) (inputs : List Frame), LegalConfig cfg → cfg.block = .sync →
    SyncInv (State.built cfg inputs)

/-- R100 as an invariant of every step, from every state that has it: legal parameters, `W`-bit cursors, distance in
`[0, C]`, canonical storage. -/
def Obligations.SyncStepsKeepTheInvariant : Prop :=
  ∀ s t : State, SyncInv s → step s = .next t → SyncInv t

/-- R108: in `sync_fifo` every pair of command words has its outcome: with reset released and a source that
suffices, a step answers a next state. -/
def Obligations.SyncStepsAreTotal : Prop :=
  ∀ s : State, SyncInv s → s.nextFrame.pins.rstN % 2 = 1 →
    (∀ n : Nat, decodeP s.cfg.W s.nextFrame.pins.pCmd = .put n → n ≤ s.nextFrame.pins.pData.length) →
    ∃ t : State, step s = .next t

/-- R106 as an invariant of every step: the clauses of the FIFO law of `sync_fifo` hold of a ring just constructed
with empty streams, and every step keeps them, with the streams growing by the bytes it accepts and delivers. -/
def Obligations.SyncFifoLaw : Prop :=
  (∀ (cfg : Config) (inputs : List Frame), LegalConfig cfg → cfg.block = .sync →
    SyncFifo (State.built cfg inputs) { accepted := [], delivered := [] }) ∧
  (∀ (s t : State) (g : Streams), SyncInv s → SyncFifo s g → step s = .next t → SyncFifo t (g.after s t))

/-- R107, for both blocks, as an invariant of every step: each position queued holds a stored byte, from construction
on, and then a step does not depend on the unspecified contents of storage (R157): with any other draw of them, the
free value of assumption log 4, it answers the same state. -/
def Obligations.UnwrittenBytesNeverInfluenceAStep : Prop :=
  (∀ (cfg : Config) (inputs : List Frame), QueuedStored (State.built cfg inputs)) ∧
  (∀ s t : State, (SyncInv s ∨ ∃ h : History, AsyncInv s h) → QueuedStored s → step s = .next t →
    QueuedStored t ∧ ∀ draw : Nat, step { s with draw := draw } = .next { t with draw := draw })

/-- R39 in `sync_fifo`: the producer's region and the consumer's region share no cell. -/
def Obligations.ProducerAndConsumerRegionsAreDisjoint : Prop :=
  ∀ (C W w r i j : Nat), capOk C W = true → w < 2 ^ W → r < 2 ^ W → invOk C W w r = true →
    i < free C W w r → j < queued W w r →
    index C ((w + i) % 2 ^ W) ≠ index C ((r + j) % 2 ^ W)

/-! ### Ownership -/

/-- R18, R150: no operation of the consumer port changes storage or the write domain, and no operation of the
producer port changes the read domain, in either block and any state. -/
def Obligations.EachPortChangesOnlyItsOwnSide : Prop :=
  ∀ (i : Instr) (s t : State), exec i s = .next t →
    (i.port = .consumer → t.storage = s.storage ∧ t.wd = s.wd) ∧
    (i.port = .producer → t.rd = s.rd)

/-- R111, who writes what in `async_fifo`: a step of an agent changes only that agent's registers, but for the
outputs `p_done` and `c_done` of the step before, which fall at the next step of any agent: that is the model's
reading of R50 (assumption log 10). -/
def Obligations.EachAgentWritesOnlyItsOwnRegisters : Prop :=
  ∀ s t : State, s.cfg.block = .async → s.life = .running → step s = .next t →
    (s.nextFrame.agent ≠ .prod → t.storage = s.storage ∧
      t.wd = { s.wd with wqRgray := t.wd.wqRgray, pReturn := none }) ∧
    (s.nextFrame.agent ≠ .cons → t.rd = { s.rd with rqWgray := t.rd.rqWgray, cReturn := none }) ∧
    (s.nextFrame.agent ≠ .sr2w → t.wd.wqRgray = s.wd.wqRgray) ∧
    (s.nextFrame.agent ≠ .sw2r → t.rd.rqWgray = s.rd.rqWgray)

/-- R111, who reads across: PROD's steps see nothing of the read domain, CONS's steps nothing of the write domain
but storage, and each synchroniser nothing of the other domain but the Gray register it samples. -/
def Obligations.OnlyGrayRegistersAndStorageCross : Prop :=
  (∀ (s : State) (rd : ReadDomain), (s.setRd rd).prodStep = s.prodStep.setRd rd) ∧
  (∀ (s : State) (rd : ReadDomain) (n : Nat), (s.setRd rd).acceptPut n = (s.acceptPut n).setRd rd) ∧
  (∀ (s : State) (wd : WriteDomain), (s.setWd wd).consStep = s.consStep.setWd wd) ∧
  (∀ (s : State) (wd : WriteDomain) (n : Nat), (s.setWd wd).acceptGet n = (s.acceptGet n).setWd wd) ∧
  (∀ (s : State) (wd : WriteDomain), wd.wgray = s.wd.wgray → (s.setWd wd).syncW2R.rd = s.syncW2R.rd) ∧
  (∀ (s : State) (rd : ReadDomain), rd.rgray = s.rd.rgray → (s.setRd rd).syncR2W.wd = s.syncR2W.wd)

/-! ### Steps -/

/-- A step runs the decoded operations. With reset asserted it is INIT; the first step with reset released sets a
constructed ring running and is a step of it (R159, R160; assumption log 7); in a running `sync_fifo` a step is both
ports' operations on the latched state, and just the one port's where the other is idle; in a running `async_fifo`
the agent whose turn it is, if its port is idle, runs the operation on its port. -/
def Obligations.StepRunsTheDecodedOperations : Prop :=
  ∀ s : State,
    (s.nextFrame.pins.rstN % 2 = 0 → step s = exec .init s.latchFrame) ∧
    (s.life = .held → s.nextFrame.pins.rstN % 2 = 1 → step s = step { s with life := .running }) ∧
    (s.nextFrame.pins.rstN % 2 = 1 → s.life = .running → s.checksOk = true →
      (s.cfg.block = .sync →
        step s = joinPorts (exec (decodeP s.cfg.W s.nextFrame.pins.pCmd) s.latchFrame)
          (exec (decodeC s.cfg.W s.nextFrame.pins.cCmd) s.latchFrame) ∧
        (s.nextFrame.pins.cCmd % 2 = 0 →
          step s = exec (decodeP s.cfg.W s.nextFrame.pins.pCmd) s.latchFrame) ∧
        (s.nextFrame.pins.pCmd % 2 = 0 →
          step s = exec (decodeC s.cfg.W s.nextFrame.pins.cCmd) s.latchFrame)) ∧
      (s.cfg.block = .async → s.nextFrame.agent = .prod → s.wd.pPhase = .idle →
        step s = exec (decodeP s.cfg.W s.nextFrame.pins.pCmd) s.latchFrame) ∧
      (s.cfg.block = .async → s.nextFrame.agent = .cons → s.rd.cPhase = .idle →
        step s = exec (decodeC s.cfg.W s.nextFrame.pins.cCmd) s.latchFrame))

/-! ### async_fifo: transactions -/

/-- R112, R114, R120: in `async_fifo` a PUT or GET word on an idle port completes its step ACCEPT, which latches the
request and, for PUT, the handle on the source, and changes nothing else. -/
def Obligations.AsyncAcceptLatchesTheRequest : Prop :=
  ∀ (s : State) (req : Nat), s.life = .running → s.cfg.block = .async →
    (s.wd.pPhase = .idle → s.invOkW = true → req ≤ s.source.length →
      exec (.put req) s =
        .next { s with wd := { s.wd with pPhase := .sample, pReq := req, pOffer := s.pins.pData } }) ∧
    (s.rd.cPhase = .idle → s.invOkR = true →
      exec (.get req) s = .next { s with rd := { s.rd with cPhase := .sample, cReq := req } })

/-- R60, R63: a word on a port that is not ready has no effect: while a transaction is in flight on the port, while
reset is held, and for ever after a failed construction. -/
def Obligations.WordOnABusyPortHasNoEffect : Prop :=
  ∀ (s : State) (n : Nat),
    (s.life = .held ∨ (∃ c : Nat, s.life = .failed c) → exec (.put n) s = .next s ∧ exec (.get n) s = .next s) ∧
    (s.life = .running → s.wd.pPhase ≠ .idle → exec (.put n) s = .next s) ∧
    (s.life = .running → s.rd.cPhase ≠ .idle → exec (.get n) s = .next s)

/-- The table of R114 with R115 to R118 and R125: what each step of PROD does inside a PUT, and that it does nothing
else but let the outputs of the step before fall. When `p_done` and `c_done` fall is the model's reading
(assumption log 10). -/
def Obligations.PutPhaseSteps : Prop :=
  ∀ s : State, s.life = .running → s.cfg.block = .async → s.checksOk = true →
    s.nextFrame.agent = .prod → s.nextFrame.pins.rstN % 2 = 1 →
    let w := s.wd.writeCursor
    let n := min s.wd.pReq (s.cfg.C - cursorDist s.cfg.W w (gray2bin s.cfg.W (s.wd.wqRgray.getLastD 0)))
    let l1 := min n (s.cfg.C - index s.cfg.C w)
    let quiet : WriteDomain := { s.wd with pReturn := none }
    let latched := s.latchFrame
    (s.wd.pPhase = .sample → step s = .next { latched with
      wd := { quiet with pPhase := .copy, pN := n, pL1 := l1, pL2 := n - l1, pSrc := s.wd.pOffer.take n } }) ∧
    (s.wd.pPhase = .copy → step s = .next { latched with
      storage := (s.storage.writeRun (index s.cfg.C w) (s.wd.pSrc.take s.wd.pL1)).writeRun 0
        ((s.wd.pSrc.drop s.wd.pL1).take s.wd.pL2)
      wd := { quiet with pPhase := .barrier } }) ∧
    (s.wd.pPhase = .barrier → step s = .next { latched with
      wd := { quiet with pPhase := .advance, pLeft := s.wd.pN } }) ∧
    (s.wd.pPhase = .advance → 0 < s.wd.pLeft → step s = .next { latched with
      wd := { quiet with
        writeCursor := (w + 1) % 2 ^ s.cfg.W
        wgray := bin2gray ((w + 1) % 2 ^ s.cfg.W)
        pLeft := s.wd.pLeft - 1 } }) ∧
    (s.wd.pPhase = .advance → s.wd.pLeft = 0 → step s = .next { latched with
      wd := { quiet with pPhase := .done } }) ∧
    (s.wd.pPhase = .done → step s = .next { latched with
      wd := { quiet with pPhase := .idle, pReturn := some s.wd.pN } })

/-- R120 with R121 to R125: what each step of CONS does inside a GET, and that it does nothing else but let the
outputs of the step before fall. When `p_done` and `c_done` fall is the model's reading (assumption log 10). -/
def Obligations.GetPhaseSteps : Prop :=
  ∀ s : State, s.life = .running → s.cfg.block = .async → s.checksOk = true →
    s.nextFrame.agent = .cons → s.nextFrame.pins.rstN % 2 = 1 →
    let r := s.rd.readCursor
    let n := min s.rd.cReq (cursorDist s.cfg.W (gray2bin s.cfg.W (s.rd.rqWgray.getLastD 0)) r)
    let l1 := min n (s.cfg.C - index s.cfg.C r)
    let quiet : ReadDomain := { s.rd with cReturn := none }
    let latched := s.latchFrame
    (s.rd.cPhase = .sample → step s = .next { latched with
      rd := { quiet with cPhase := .copy, cN := n, cL1 := l1, cL2 := n - l1 } }) ∧
    (s.rd.cPhase = .copy → step s = .next { latched with
      rd := { quiet with
        cPhase := .barrier
        cOut := s.storage.readRun s.draw (index s.cfg.C r) s.rd.cL1 ++ s.storage.readRun s.draw 0 s.rd.cL2 } }) ∧
    (s.rd.cPhase = .barrier → step s = .next { latched with
      rd := { quiet with cPhase := .advance, cLeft := s.rd.cN } }) ∧
    (s.rd.cPhase = .advance → 0 < s.rd.cLeft → step s = .next { latched with
      rd := { quiet with
        readCursor := (r + 1) % 2 ^ s.cfg.W
        rgray := bin2gray ((r + 1) % 2 ^ s.cfg.W)
        cLeft := s.rd.cLeft - 1 } }) ∧
    (s.rd.cPhase = .advance → s.rd.cLeft = 0 → step s = .next { latched with
      rd := { quiet with cPhase := .done } }) ∧
    (s.rd.cPhase = .done → step s = .next { latched with
      rd := { quiet with cPhase := .idle, cReturn := some { count := s.rd.cN, data := s.rd.cOut } } })

/-- R126: the SYNC step of each synchroniser, for `N_SYNC` stages: stage 1 takes the sampled Gray register, every
later stage what its predecessor held; nothing else changes but that the outputs of the step before fall, which is
the model's reading (assumption log 10). -/
def Obligations.SyncStepShiftsTheChain : Prop :=
  ∀ s : State, s.life = .running → s.cfg.block = .async → s.checksOk = true →
    s.nextFrame.pins.rstN % 2 = 1 →
    (s.nextFrame.agent = .sw2r → ∃ chain : List Nat,
      step s = .next (s.latchFrame.setRd { s.rd with rqWgray := chain, cReturn := none }) ∧
      chain.length = s.rd.rqWgray.length ∧
      (∀ i : Nat, i < s.rd.rqWgray.length → chain[i]? = (s.wd.wgray :: s.rd.rqWgray)[i]?)) ∧
    (s.nextFrame.agent = .sr2w → ∃ chain : List Nat,
      step s = .next (s.latchFrame.setWd { s.wd with wqRgray := chain, pReturn := none }) ∧
      chain.length = s.wd.wqRgray.length ∧
      (∀ i : Nat, i < s.wd.wqRgray.length → chain[i]? = (s.rd.rgray :: s.wd.wqRgray)[i]?))

/-- R113, R114 for a PUT with no step of another agent between: it takes ACCEPT and `5 + n` further steps of PROD, is
in flight until the last of them, and its net effect is PutCore with the view for the read cursor. -/
def Obligations.AsyncPutNetEffectIsPutCore : Prop :=
  ∀ (s : State) (req : Nat), s.life = .running → s.cfg.block = .async → s.wd.pPhase = .idle →
    s.invOkW = true → req ≤ s.source.length → fitsIn s.cfg.W s.wd.writeCursor = true →
    s.wd.wgray = bin2gray s.wd.writeCursor →
    let p := putCore s.cfg.C s.cfg.W s.storage s.wd.writeCursor s.rdSeen s.source req
    ∃ t : State, exec (.put req) s = .next t ∧
      (∀ k : Nat, k < 5 + p.count → (repeatStep State.prodStep k t).wd.pPhase ≠ .idle) ∧
      repeatStep State.prodStep (5 + p.count) t =
        { s with
          storage := p.storage
          wd := { s.wd with
            writeCursor := p.writeCursor
            wgray := bin2gray p.writeCursor
            pReq := req
            pOffer := s.source
            pN := p.count
            pL1 := seg1 s.cfg.C s.wd.writeCursor p.count
            pL2 := seg2 s.cfg.C s.wd.writeCursor p.count
            pLeft := 0
            pSrc := s.source.take p.count
            pReturn := some p.count } }

/-- R119, R120 for a GET with no step of another agent between: it takes ACCEPT and `5 + n` further steps of CONS, is
in flight until the last of them, and its net effect is GetCore with the view for the write cursor. -/
def Obligations.AsyncGetNetEffectIsGetCore : Prop :=
  ∀ (s : State) (req : Nat), s.life = .running → s.cfg.block = .async → s.rd.cPhase = .idle →
    s.invOkR = true → fitsIn s.cfg.W s.rd.readCursor = true → s.rd.rgray = bin2gray s.rd.readCursor →
    let g := getCore s.cfg.C s.cfg.W s.draw s.storage s.wrSeen s.rd.readCursor req
    ∃ t : State, exec (.get req) s = .next t ∧
      (∀ k : Nat, k < 5 + g.count → (repeatStep State.consStep k t).rd.cPhase ≠ .idle) ∧
      repeatStep State.consStep (5 + g.count) t =
        { s with
          rd := { s.rd with
            readCursor := g.readCursor
            rgray := bin2gray g.readCursor
            cReq := req
            cN := g.count
            cL1 := seg1 s.cfg.C s.rd.readCursor g.count
            cL2 := seg2 s.cfg.C s.rd.readCursor g.count
            cLeft := 0
            cOut := g.out
            cReturn := some { count := g.count, data := g.out } } }

/-- R113 under every schedule, step by step: from ACCEPT on, whichever agent steps, the PUT keeps to PutCore of the
storage, cursor, source and request it was accepted on with the view that PROD's SAMPLE step reads. At its end
`PutTxn.tracks` says that storage, write cursor and count are PutCore's. -/
def Obligations.AsyncPutKeepsToPutCoreUnderEverySchedule : Prop :=
  ∀ (s t : State) (h : History), AsyncInv s h → step s = .next t →
    (∀ req rv : Nat, s.nextFrame.agent = .prod → s.wd.pPhase = .idle →
      decodeP s.cfg.W s.nextFrame.pins.pCmd = .put req → t.wd.pPhase = .sample ∧
      PutTxn.tracks { storage := s.storage, writeCursor := s.wd.writeCursor, source := s.nextFrame.pins.pData,
                      req := req } rv t) ∧
    (∀ (q : PutTxn) (rv : Nat), q.tracks rv s →
      (s.nextFrame.agent = .prod → s.wd.pPhase = .sample → t.wd.pPhase = .copy ∧ q.tracks s.rdSeen t) ∧
      (s.wd.pPhase ≠ .idle → ¬ (s.nextFrame.agent = .prod ∧ s.wd.pPhase = .sample) → q.tracks rv t))

/-- R119 under every schedule, step by step: from ACCEPT on, whichever agent steps, the GET keeps to GetCore of the
cursor and request it was accepted on, with the view that CONS's SAMPLE step reads and the storage at its COPY step.
At its end `GetTxn.tracks` says that read cursor, count and bytes are GetCore's. -/
def Obligations.AsyncGetKeepsToGetCoreUnderEverySchedule : Prop :=
  ∀ (s t : State) (h : History), AsyncInv s h → step s = .next t →
    (∀ (req wv : Nat) (m : Memory), s.nextFrame.agent = .cons → s.rd.cPhase = .idle →
      decodeC s.cfg.W s.nextFrame.pins.cCmd = .get req → t.rd.cPhase = .sample ∧
      GetTxn.tracks { readCursor := s.rd.readCursor, req := req } wv m t) ∧
    (∀ (q : GetTxn) (wv : Nat) (m : Memory), q.tracks wv m s →
      (s.nextFrame.agent = .cons → s.rd.cPhase = .sample → t.rd.cPhase = .copy ∧ q.tracks s.wrSeen m t) ∧
      (s.nextFrame.agent = .cons → s.rd.cPhase = .copy → t.rd.cPhase = .barrier ∧ q.tracks wv s.storage t) ∧
      (s.rd.cPhase ≠ .idle →
        ¬ (s.nextFrame.agent = .cons ∧ (s.rd.cPhase = .sample ∨ s.rd.cPhase = .copy)) → q.tracks wv m t))

/-- R132: from a settled state a PUT or GET of `async_fifo` that runs to DONE with no step of the other port between,
whatever the synchronisers do meanwhile, leaves the cursors and storage, and returns the result, that the same
command gives in `sync_fifo`. -/
def Obligations.SettledAsyncTransactionEqualsSync : Prop :=
  ∀ (s : State) (h : History) (req : Nat), AsyncInv s h → Settled s →
    let asSync : State := { s with cfg := { s.cfg with block := .sync } }
    (req ≤ s.source.length → ∃ t u : State, exec (.put req) s = .next t ∧ exec (.put req) asSync = .next u ∧
      ∀ schedule : List Agent, .cons ∉ schedule → schedule.count .prod = 5 + u.wd.pReturn.getD 0 →
        let v := runAgents schedule t
        v.wd.pPhase = .idle ∧ v.storage = u.storage ∧ v.wd.writeCursor = u.wd.writeCursor ∧
        v.rd.readCursor = u.rd.readCursor ∧ v.wd.pReturn = u.wd.pReturn) ∧
    (∃ t u : State, exec (.get req) s = .next t ∧ exec (.get req) asSync = .next u ∧
      ∀ schedule : List Agent, .prod ∉ schedule →
        schedule.count .cons = 5 + ((u.rd.cReturn.map GetReturn.count).getD 0) →
        let v := runAgents schedule t
        v.rd.cPhase = .idle ∧ v.storage = u.storage ∧ v.wd.writeCursor = u.wd.writeCursor ∧
        v.rd.readCursor = u.rd.readCursor ∧ v.rd.cReturn = u.rd.cReturn)

/-- R132, R134: `N_SYNC` SYNC steps of each synchroniser, with no ADV1 between them, settle an idle ring: then each
view is the cursor itself, and nothing else has changed. -/
def Obligations.SyncStepsSettleAnIdleRing : Prop :=
  ∀ (s : State) (h : History), AsyncInv s h → s.wd.pPhase = .idle → s.rd.cPhase = .idle →
    let t := repeatStep State.syncR2W s.cfg.nSync (repeatStep State.syncW2R s.cfg.nSync s)
    Settled t ∧ t.wrSeen = s.wd.writeCursor ∧ t.rdSeen = s.rd.readCursor ∧
    t.storage = s.storage ∧ t.wd = { s.wd with wqRgray := t.wd.wqRgray } ∧
    t.rd = { s.rd with rqWgray := t.rd.rqWgray }

/-! ### async_fifo: laws of the crossing -/

/-- The invariant of `async_fifo` holds of a ring just constructed, with all totals 0 (R127). -/
def Obligations.AsyncInvariantHoldsAfterReset : Prop :=
  ∀ (cfg : Config) (inputs : List Frame), LegalConfig cfg → cfg.block = .async →
    AsyncInv (State.built cfg inputs) (History.start cfg.nSync)

/-- R127, R128 as an invariant of every step of every agent: the view law, the producer and consumer invariants and
the latches of both transactions, with the totals moving as R127 says, and the views never going backwards. -/
def Obligations.AsyncStepsKeepTheInvariant : Prop :=
  ∀ (s t : State) (h : History), AsyncInv s h → step s = .next t →
    AsyncInv t (h.after s) ∧ h.kSeen ≤ (h.after s).kSeen ∧ h.dSeen ≤ (h.after s).dSeen

/-- R128, R129: what the invariant says of the registers: each side's distance is the difference of the totals, in
`[0, C]`, its check output is 1, and the true distance is in `[0, C]` too. -/
def Obligations.AsyncDistancesAreDifferencesOfTotals : Prop :=
  ∀ (s : State) (h : History), AsyncInv s h →
    h.dSeen ≤ h.D ∧ h.D ≤ h.kSeen ∧ h.kSeen ≤ h.K ∧ h.K - h.dSeen ≤ s.cfg.C ∧
    cursorDist s.cfg.W s.wd.writeCursor s.rdSeen = h.K - h.dSeen ∧ s.invOkW = true ∧
    cursorDist s.cfg.W s.wrSeen s.rd.readCursor = h.kSeen - h.D ∧ h.kSeen - h.D ≤ s.cfg.C ∧ s.invOkR = true ∧
    cursorDist s.cfg.W s.wd.writeCursor s.rd.readCursor = h.K - h.D

/-- R138, R8: with reset released no agent's step is ever refused or faulted in `async_fifo`, unless the producer
presents a PUT whose source is too short to an idle port. -/
def Obligations.AsyncStepsAreTotal : Prop :=
  ∀ (s : State) (h : History), AsyncInv s h → s.nextFrame.pins.rstN % 2 = 1 →
    (∀ n : Nat, s.nextFrame.agent = .prod → s.wd.pPhase = .idle →
      decodeP s.cfg.W s.nextFrame.pins.pCmd = .put n → n ≤ s.nextFrame.pins.pData.length) →
    ∃ t : State, step s = .next t

/-- R136: between two consecutive steps a Gray register that the other domain samples changes in at most one bit. -/
def Obligations.GrayRegistersChangeInOneBit : Prop :=
  ∀ (s t : State) (h : History), AsyncInv s h → step s = .next t →
    (t.wd.wgray = s.wd.wgray ∨ ∃ i : Nat, i < s.cfg.W ∧ s.wd.wgray ^^^ t.wd.wgray = 2 ^ i) ∧
    (t.rd.rgray = s.rd.rgray ∨ ∃ i : Nat, i < s.cfg.W ∧ s.rd.rgray ^^^ t.rd.rgray = 2 ^ i)

/-- R133: the counts taken at SAMPLE never exceed the true free space and the true queued count. -/
def Obligations.SampledCountsAreConservative : Prop :=
  ∀ (s : State) (h : History), AsyncInv s h →
    s.samplePut.wd.pN ≤ min s.wd.pReq (s.cfg.C - (h.K - h.D)) ∧
    s.sampleGet.rd.cN ≤ min s.rd.cReq (h.K - h.D)

/-- R19, R27: what each condition output is, in every state, and that those of `async_fifo` err only on the
conservative side of the true ones. -/
def Obligations.AsyncConditionsAreConservative : Prop :=
  (∀ s : State,
    (s.fullW = true ↔ cursorDist s.cfg.W s.wd.writeCursor s.rdSeen = s.cfg.C) ∧
    (s.emptyR = true ↔ cursorDist s.cfg.W s.wrSeen s.rd.readCursor = 0) ∧
    (s.full = true ↔ cursorDist s.cfg.W s.wd.writeCursor s.rd.readCursor = s.cfg.C) ∧
    (s.empty = true ↔ cursorDist s.cfg.W s.wd.writeCursor s.rd.readCursor = 0)) ∧
  (∀ (s : State) (h : History), AsyncInv s h →
    (s.full = true → s.fullW = true) ∧ (s.empty = true → s.emptyR = true))

/-- R130: each side's region as it computes it lies in the true one; the cells a PUT in flight writes and the cells a
GET in flight reads are different cells; and no step rewrites a cell until the read cursor has passed it and that
advance has reached the producer's view. -/
def Obligations.TransactionsInFlightTouchDifferentCells : Prop :=
  ∀ (s : State) (h : History), AsyncInv s h →
    (cursorDist s.cfg.W s.wd.writeCursor s.rd.readCursor ≤ cursorDist s.cfg.W s.wd.writeCursor s.rdSeen ∧
      cursorDist s.cfg.W s.wrSeen s.rd.readCursor ≤ cursorDist s.cfg.W s.wd.writeCursor s.rd.readCursor) ∧
    (∀ i j : Nat, s.wd.pPhase = .copy → s.rd.cPhase = .copy → i < s.wd.pN → j < s.rd.cN →
      index s.cfg.C ((s.wd.writeCursor + i) % 2 ^ s.cfg.W) ≠
        index s.cfg.C ((s.rd.readCursor + j) % 2 ^ s.cfg.W)) ∧
    (∀ (t : State) (j : Nat), step s = .next t → j < cursorDist s.cfg.W s.wd.writeCursor s.rdSeen →
      t.storage.stored? (index s.cfg.C ((s.rdSeen + j) % 2 ^ s.cfg.W)) =
        s.storage.stored? (index s.cfg.C ((s.rdSeen + j) % 2 ^ s.cfg.W)))

/-- R131 as an invariant of every step of every agent, under every schedule: the clauses of the FIFO law of
`async_fifo` hold of a ring just constructed with empty streams and totals 0, and every step keeps them, with the
streams growing by the bytes taken and read and the totals moving as R127 says. That a GET's bytes count as OUT from
its COPY on, so that its owed ADV1 steps count in the length of OUT from there, is the model's reading
(assumption log 21). -/
def Obligations.AsyncFifoLaw : Prop :=
  (∀ (cfg : Config) (inputs : List Frame), LegalConfig cfg → cfg.block = .async →
    AsyncFifo (State.built cfg inputs) { accepted := [], delivered := [] } (History.start cfg.nSync)) ∧
  (∀ (s t : State) (g : Streams) (h : History), AsyncInv s h → AsyncFifo s g h → step s = .next t →
    AsyncFifo t (g.after s t) (h.after s))

/-- The FIFO laws of R106 and R131 along every run, with `K` and `D` the ADV1 steps the run has taken; in `async_fifo`
with the view law and both ports' invariants (R127, R128, R129). That the length of OUT counts the ADV1 steps a GET
owes from its COPY on, when its bytes have been read, is the model's reading (assumption log 21). And no step of a run
of either block depends on the unspecified contents of storage (R107), which are the free value of assumption log 4. -/
def Obligations.FifoLawsAlongEveryRun : Prop :=
  ∀ (cfg : Config) (inputs : List Frame) (s : State) (g : Streams) (h : History), LegalConfig cfg →
    Reachable cfg inputs s g h →
    g.delivered <+: g.accepted ∧
    (cfg.block = .sync →
      g.accepted.length % 2 ^ cfg.W = s.wd.writeCursor ∧
      g.delivered.length % 2 ^ cfg.W = s.rd.readCursor ∧
      g.accepted.length - g.delivered.length = cursorDist cfg.W s.wd.writeCursor s.rd.readCursor ∧
      (∀ k : Nat, g.delivered.length ≤ k → k < g.accepted.length →
        s.storage.stored? (index cfg.C (k % 2 ^ cfg.W)) = g.accepted[k]?)) ∧
    (cfg.block = .async →
      AsyncInv s h ∧ g.accepted.length = h.K + s.putOwes ∧ g.delivered.length = h.D + s.getReadAhead ∧
      (∀ k : Nat, h.D ≤ k → k < h.K →
        s.storage.stored? (index cfg.C (k % 2 ^ cfg.W)) = g.accepted[k]?)) ∧
    (∀ (t : State) (draw : Nat), step s = .next t → step { s with draw := draw } = .next { t with draw := draw })

/-- R138: a run that is over stays over, with the cursors, the storage, the phases and the latches of both ports as they
are, even while the synchronisers still step; only the outputs `p_done` and `c_done` of the step before fall, which is
the model's reading (assumption log 10). And a run of `async_fifo` whose HOST has no more frames comes to its end, a
port in a transaction going on to IDLE, within the steps the transactions take (R114, R120). That HOST's last frames
are followed by the ports' own steps, the producer's first, is the model's choice of a schedule (assumption log 9). -/
def Obligations.RunsComeToTheirEnd : Prop :=
  (∀ s : State, s.life = .running → s.checksOk = true → s.runOver = true →
    ∃ t : State, step s = .next t ∧ t.runOver = true ∧ t.storage = s.storage ∧
      t.wd = { s.wd with wqRgray := t.wd.wqRgray, pReturn := none } ∧
      t.rd = { s.rd with rqWgray := t.rd.rqWgray, cReturn := none }) ∧
  (∀ (s : State) (h : History), AsyncInv s h → s.inputs = [] →
    ∃ (k : Nat) (t : State), k ≤ 2 * (5 + s.cfg.C) ∧ runSteps k s = some t ∧ t.runOver = true)
end

