-- ==== Sys2Proof/Laws/State.lean ====
section
/-! SUPPORT. The small lemmas of State: what each named update leaves in each field. -/

namespace Sys2Proof.Machine

section setWd
variable (s : State) (wd : WriteDomain)
@[simp] theorem State.setWd_cfg : (s.setWd wd).cfg = s.cfg := rfl
@[simp] theorem State.setWd_life : (s.setWd wd).life = s.life := rfl
@[simp] theorem State.setWd_draw : (s.setWd wd).draw = s.draw := rfl
@[simp] theorem State.setWd_storage : (s.setWd wd).storage = s.storage := rfl
@[simp] theorem State.setWd_wd : (s.setWd wd).wd = wd := rfl
@[simp] theorem State.setWd_rd : (s.setWd wd).rd = s.rd := rfl
@[simp] theorem State.setWd_pins : (s.setWd wd).pins = s.pins := rfl
@[simp] theorem State.setWd_inputs : (s.setWd wd).inputs = s.inputs := rfl
end setWd

section setRd
variable (s : State) (rd : ReadDomain)
@[simp] theorem State.setRd_cfg : (s.setRd rd).cfg = s.cfg := rfl
@[simp] theorem State.setRd_life : (s.setRd rd).life = s.life := rfl
@[simp] theorem State.setRd_draw : (s.setRd rd).draw = s.draw := rfl
@[simp] theorem State.setRd_storage : (s.setRd rd).storage = s.storage := rfl
@[simp] theorem State.setRd_wd : (s.setRd rd).wd = s.wd := rfl
@[simp] theorem State.setRd_rd : (s.setRd rd).rd = rd := rfl
@[simp] theorem State.setRd_pins : (s.setRd rd).pins = s.pins := rfl
@[simp] theorem State.setRd_inputs : (s.setRd rd).inputs = s.inputs := rfl
@[simp] theorem State.setRd_self : s.setRd s.rd = s := rfl
end setRd

section setStorage
variable (s : State) (m : Memory)
@[simp] theorem State.setStorage_cfg : (s.setStorage m).cfg = s.cfg := rfl
@[simp] theorem State.setStorage_life : (s.setStorage m).life = s.life := rfl
@[simp] theorem State.setStorage_draw : (s.setStorage m).draw = s.draw := rfl
@[simp] theorem State.setStorage_storage : (s.setStorage m).storage = m := rfl
@[simp] theorem State.setStorage_wd : (s.setStorage m).wd = s.wd := rfl
@[simp] theorem State.setStorage_rd : (s.setStorage m).rd = s.rd := rfl
@[simp] theorem State.setStorage_pins : (s.setStorage m).pins = s.pins := rfl
@[simp] theorem State.setStorage_inputs : (s.setStorage m).inputs = s.inputs := rfl
end setStorage

section setLife
variable (s : State) (l : Life)
@[simp] theorem State.setLife_cfg : (s.setLife l).cfg = s.cfg := rfl
@[simp] theorem State.setLife_life : (s.setLife l).life = l := rfl
@[simp] theorem State.setLife_draw : (s.setLife l).draw = s.draw := rfl
@[simp] theorem State.setLife_storage : (s.setLife l).storage = s.storage := rfl
@[simp] theorem State.setLife_wd : (s.setLife l).wd = s.wd := rfl
@[simp] theorem State.setLife_rd : (s.setLife l).rd = s.rd := rfl
@[simp] theorem State.setLife_pins : (s.setLife l).pins = s.pins := rfl
@[simp] theorem State.setLife_inputs : (s.setLife l).inputs = s.inputs := rfl
end setLife

section latchFrame
variable (s : State)
@[simp] theorem State.latchFrame_cfg : s.latchFrame.cfg = s.cfg := rfl
@[simp] theorem State.latchFrame_life : s.latchFrame.life = s.life := rfl
@[simp] theorem State.latchFrame_draw : s.latchFrame.draw = s.draw := rfl
@[simp] theorem State.latchFrame_storage : s.latchFrame.storage = s.storage := rfl
@[simp] theorem State.latchFrame_wd : s.latchFrame.wd = { s.wd with pReturn := none } := rfl
@[simp] theorem State.latchFrame_rd : s.latchFrame.rd = { s.rd with cReturn := none } := rfl
@[simp] theorem State.latchFrame_pins : s.latchFrame.pins = s.nextFrame.pins := rfl
@[simp] theorem State.latchFrame_inputs : s.latchFrame.inputs = s.inputs.tail := rfl
@[simp] theorem State.latchFrame_wrSeen : s.latchFrame.wrSeen = s.wrSeen := rfl
@[simp] theorem State.latchFrame_rdSeen : s.latchFrame.rdSeen = s.rdSeen := rfl
@[simp] theorem State.latchFrame_checksOk : s.latchFrame.checksOk = s.checksOk := rfl
end latchFrame

section construct
variable (s : State)
@[simp] theorem State.construct_cfg : s.construct.cfg = s.cfg := rfl
@[simp] theorem State.construct_life : s.construct.life = .held := rfl
@[simp] theorem State.construct_draw : s.construct.draw = s.draw + 1 := rfl
@[simp] theorem State.construct_storage : s.construct.storage = [] := rfl
@[simp] theorem State.construct_wd : s.construct.wd = .reset s.cfg.nSync := rfl
@[simp] theorem State.construct_rd : s.construct.rd = .reset s.cfg.nSync := rfl
@[simp] theorem State.construct_pins : s.construct.pins = s.pins := rfl
@[simp] theorem State.construct_inputs : s.construct.inputs = s.inputs := rfl
end construct

section built
variable (cfg : Config) (inputs : List Frame)
@[simp] theorem State.built_cfg : (State.built cfg inputs).cfg = cfg := rfl
@[simp] theorem State.built_life : (State.built cfg inputs).life = .running := rfl
@[simp] theorem State.built_storage : (State.built cfg inputs).storage = [] := rfl
@[simp] theorem State.built_wd : (State.built cfg inputs).wd = .reset cfg.nSync := rfl
@[simp] theorem State.built_rd : (State.built cfg inputs).rd = .reset cfg.nSync := rfl
@[simp] theorem State.built_pins : (State.built cfg inputs).pins = .idle := rfl
@[simp] theorem State.built_inputs : (State.built cfg inputs).inputs = inputs := rfl
end built

/-- Releasing the reset of a ring that runs, or that was never built, changes nothing. -/
theorem State.releaseReset_of_not_held {s : State} (h : s.life ≠ .held) : s.releaseReset = s := by
  simp [State.releaseReset, h]

/-- Releasing the reset of a constructed ring sets it running and changes nothing else. -/
theorem State.releaseReset_of_held {s : State} (h : s.life = .held) :
    s.releaseReset = s.setLife .running := by
  simp [State.releaseReset, h]

end Sys2Proof.Machine
end

