-- ==== Sys2Proof/Laws/Indexer.lean ====
section
/-! SUPPORT. The small lemmas of the index arithmetic: ranges, and each function in the form `omega` reads. -/

namespace Sys2Proof.Machine

/-- An offset is always inside the storage. -/
theorem index_lt {C : Nat} (hC : 0 < C) (p : Nat) : index C p < C := by
  have h : p &&& (C - 1) ≤ C - 1 := Nat.and_le_right
  unfold index mask
  omega

theorem adv_lt (W c n : Nat) : adv W c n < 2 ^ W := Nat.mod_lt _ (by positivity)

theorem cursorDist_lt (W a b : Nat) : cursorDist W a b < 2 ^ W := by
  have hpos : (0 : Int) < ((2 ^ W : Nat) : Int) := by exact_mod_cast (by positivity : 0 < 2 ^ W)
  have h := Int.emod_lt_of_pos ((a : Int) - b) hpos
  have h0 := Int.emod_nonneg ((a : Int) - b) hpos.ne'
  unfold cursorDist
  omega

/-- The distance of two values of `W` bits without a remainder. -/
theorem cursorDist_eq {W a b : Nat} (ha : a < 2 ^ W) (hb : b < 2 ^ W) :
    cursorDist W a b = if b ≤ a then a - b else a + 2 ^ W - b := by
  unfold cursorDist
  split
  · rw [Int.emod_eq_of_lt] <;> omega
  · rw [show ((a : Int) - b) = (a + (2 ^ W : Nat) - b) + ((2 ^ W : Nat) : Int) * (-1) by ring,
      Int.add_mul_emod_self_left, Int.emod_eq_of_lt] <;> omega

@[simp] theorem cursorDist_self (W a : Nat) : cursorDist W a a = 0 := by simp [cursorDist]

theorem fitsIn_iff {W v : Nat} : fitsIn W v = true ↔ v < 2 ^ W := by simp [fitsIn]

theorem capOk_iff {C W : Nat} : capOk C W = true ↔ isPow2 C = true ∧ C < 2 ^ W := by simp [capOk]

/-- A capacity that passes the check is positive. -/
theorem capOk_pos {C W : Nat} (h : capOk C W = true) : 0 < C := by
  simp [capOk, isPow2] at h
  omega

/-- A capacity that passes the check is below the range of a cursor. -/
theorem capOk_lt {C W : Nat} (h : capOk C W = true) : C < 2 ^ W := (capOk_iff.mp h).2

/-- A capacity that passes the check is the power of two of its width. -/
theorem capOk_eq_two_pow {C W : Nat} (h : capOk C W = true) : C = 2 ^ log2c C := by
  simp [capOk, isPow2] at h
  exact h.1.2.symm

theorem clampPut_le (C W req w r : Nat) : clampPut C W req w r ≤ C := by
  unfold clampPut free
  omega

theorem clampPut_le_req (C W req w r : Nat) : clampPut C W req w r ≤ req := Nat.min_le_left _ _

theorem clampGet_le (W req w r : Nat) : clampGet W req w r ≤ cursorDist W w r := Nat.min_le_right _ _

theorem clampGet_le_req (W req w r : Nat) : clampGet W req w r ≤ req := Nat.min_le_left _ _

theorem seg1_le (C pos n : Nat) : seg1 C pos n ≤ n := Nat.min_le_left _ _

theorem seg1_le_room (C pos n : Nat) : seg1 C pos n ≤ C - index C pos := Nat.min_le_right _ _

end Sys2Proof.Machine
end

