-- ==== Sys2Proof/Laws/Memory.lean ====
section
/-! SUPPORT. The small lemmas of storage: read after write, and that every write keeps the canonical form and
stays inside the storage. -/

namespace Sys2Proof.Machine

@[simp] theorem Memory.stored?_nil (off : Nat) : Memory.stored? [] off = none := rfl

theorem Memory.stored?_cons (c : Host.Cell) (m : Memory) (off : Nat) :
    Memory.stored? (c :: m) off = if c.1 = off then some c.2 else Memory.stored? m off := rfl

/-- An offset below every listed one has no stored byte. -/
theorem Memory.stored?_eq_none_of_lt {m : Memory} {off : Nat} (h : ∀ c ∈ m, off < c.1) :
    m.stored? off = none := by
  induction m with
  | nil => rfl
  | cons c rest ih =>
    have hc : off < c.1 := h c (by simp)
    rw [Memory.stored?_cons, if_neg (by omega), ih (fun d hd => h d (by simp [hd]))]

/-- What a write leaves at every offset. -/
theorem Memory.stored?_write {m : Memory} (hm : m.wf) (off : Nat) (v : Byte) (o : Nat) :
    (m.write off v).stored? o = if o = off then some v else m.stored? o := by
  induction m with
  | nil => simp [Memory.write, Memory.stored?_cons, eq_comm]
  | cons c rest ih =>
    obtain ⟨hhead, htail⟩ := List.pairwise_cons.mp hm
    unfold Memory.write
    by_cases h1 : off < c.1
    · simp only [if_pos h1, Memory.stored?_cons]
      split_ifs <;> first | rfl | omega
    · by_cases h2 : off = c.1
      · simp only [if_neg h1, if_pos h2, Memory.stored?_cons]
        split_ifs <;> first | rfl | omega
      · simp only [if_neg h1, if_neg h2, Memory.stored?_cons, ih htail]
        split_ifs <;> first | rfl | omega

/-- The listed offsets after a write are those before it and the one written. -/
theorem Memory.mem_write {m : Memory} {off : Nat} {v : Byte} {c : Host.Cell}
    (h : c ∈ m.write off v) : c = (off, v) ∨ c ∈ m := by
  induction m with
  | nil => simpa [Memory.write] using h
  | cons d rest ih =>
    unfold Memory.write at h
    split_ifs at h <;> simp only [List.mem_cons] at h ⊢
    · tauto
    · tauto
    · rcases h with h | h
      · tauto
      · rcases ih h with h | h <;> tauto

/-- A write keeps the canonical form. -/
theorem Memory.write_wf {m : Memory} (hm : m.wf) (off : Nat) (v : Byte) : (m.write off v).wf := by
  induction m with
  | nil => simp [Memory.write, Memory.wf]
  | cons c rest ih =>
    obtain ⟨hhead, htail⟩ := List.pairwise_cons.mp hm
    unfold Memory.write
    split_ifs with h1 h2
    · refine List.pairwise_cons.mpr ⟨fun d hd => ?_, hm⟩
      rcases List.mem_cons.mp hd with rfl | hd
      · exact h1
      · exact h1.trans (hhead d hd)
    · exact List.pairwise_cons.mpr ⟨fun d hd => h2 ▸ hhead d hd, htail⟩
    · refine List.pairwise_cons.mpr ⟨fun d hd => ?_, ih htail⟩
      rcases Memory.mem_write hd with rfl | hd
      · show c.1 < off
        omega
      · exact hhead d hd

/-- A write inside the storage stays inside it. -/
theorem Memory.write_within {C off : Nat} {m : Memory} (hm : m.within C) (h : off < C) (v : Byte) :
    (m.write off v).within C := fun c hc => by
  rcases Memory.mem_write hc with rfl | hc
  · exact h
  · exact hm c hc

theorem Memory.writeRun_wf {m : Memory} (hm : m.wf) (off : Nat) (bs : List Byte) :
    (m.writeRun off bs).wf := by
  induction bs generalizing m off with
  | nil => exact hm
  | cons b bs ih => exact ih (Memory.write_wf hm off b) (off + 1)

theorem Memory.writeRun_within {C off : Nat} {m : Memory} {bs : List Byte} (hm : m.within C)
    (h : off + bs.length ≤ C) : (m.writeRun off bs).within C := by
  induction bs generalizing m off with
  | nil => exact hm
  | cons b bs ih =>
    simp only [List.length_cons] at h
    exact ih (Memory.write_within hm (by omega) b) (by omega)

/-- What a run of writes leaves at every offset. -/
theorem Memory.stored?_writeRun {m : Memory} (hm : m.wf) (off : Nat) (bs : List Byte) (o : Nat) :
    (m.writeRun off bs).stored? o =
      if off ≤ o ∧ o < off + bs.length then bs[o - off]? else m.stored? o := by
  induction bs generalizing m off with
  | nil =>
    rw [if_neg (by simp only [List.length_nil]; omega)]
    rfl
  | cons b bs ih =>
    rw [Memory.writeRun, ih (Memory.write_wf hm off b), Memory.stored?_write hm]
    simp only [List.length_cons]
    by_cases h1 : o = off
    · subst h1
      rw [if_neg (by omega), if_pos rfl, if_pos (by omega)]
      simp
    · by_cases h2 : off + 1 ≤ o ∧ o < off + 1 + bs.length
      · rw [if_pos h2, if_pos (by omega), show o - off = (o - (off + 1)) + 1 by omega,
          List.getElem?_cons_succ]
      · rw [if_neg h2, if_neg h1, if_neg (by omega)]

theorem Memory.copyIn_wf {m : Memory} (hm : m.wf) (off l1 l2 : Nat) (src : List Byte) :
    (m.copyIn off l1 l2 src).wf :=
  Memory.writeRun_wf (Memory.writeRun_wf hm _ _) _ _

theorem Memory.copyIn_within {C off l1 l2 : Nat} {m : Memory} (hm : m.within C) (h1 : off + l1 ≤ C)
    (h2 : l2 ≤ C) (src : List Byte) : (m.copyIn off l1 l2 src).within C := by
  refine Memory.writeRun_within (Memory.writeRun_within hm ?_) ?_
  · have := List.length_take_le l1 src
    omega
  · have := List.length_take_le l2 (src.drop l1)
    omega

@[simp] theorem Memory.readRun_length (draw : Nat) (m : Memory) (off len : Nat) :
    (m.readRun draw off len).length = len := by
  induction len generalizing off with
  | zero => rfl
  | succ len ih => simp [Memory.readRun, ih]

/-- The bytes of a run of reads. -/
theorem Memory.readRun_getElem? (draw : Nat) (m : Memory) (off len i : Nat) (h : i < len) :
    (m.readRun draw off len)[i]? = some (m.read draw (off + i)) := by
  induction len generalizing off i with
  | zero => omega
  | succ len ih =>
    cases i with
    | zero => rfl
    | succ i =>
      rw [Memory.readRun, List.getElem?_cons_succ, ih (off + 1) i (by omega),
        show off + 1 + i = off + (i + 1) by omega]

@[simp] theorem Memory.copyOut_length (draw : Nat) (m : Memory) (off l1 l2 : Nat) :
    (m.copyOut draw off l1 l2).length = l1 + l2 := by
  simp [Memory.copyOut]

/-- What a split copy into storage leaves at every offset: the second segment from offset 0, the first from
`off`, the rest as before. -/
theorem Memory.stored?_copyIn {m : Memory} (hm : m.wf) {off l1 l2 : Nat} {src : List Byte}
    (h : l1 + l2 ≤ src.length) (o : Nat) :
    (m.copyIn off l1 l2 src).stored? o =
      if o < l2 then src[l1 + o]?
      else if off ≤ o ∧ o < off + l1 then src[o - off]?
      else m.stored? o := by
  have h1 : (src.take l1).length = l1 := by simp; omega
  have h2 : ((src.drop l1).take l2).length = l2 := by simp; omega
  rw [Memory.copyIn, Memory.stored?_writeRun (Memory.writeRun_wf hm _ _), Memory.stored?_writeRun hm, h1, h2]
  by_cases ho : o < l2
  · rw [if_pos (by omega), if_pos ho, List.getElem?_take_of_lt (by omega), List.getElem?_drop]
    rfl
  · rw [if_neg (by omega), if_neg ho]
    split_ifs with h3
    · rw [List.getElem?_take_of_lt (by omega)]
    · rfl

/-- The bytes of a split copy out of storage: the first segment from `off`, the second from offset 0. -/
theorem Memory.copyOut_getElem? (draw : Nat) (m : Memory) (off l1 l2 i : Nat) (h : i < l1 + l2) :
    (m.copyOut draw off l1 l2)[i]? =
      some (m.read draw (if i < l1 then off + i else i - l1)) := by
  unfold Memory.copyOut
  split_ifs with hi
  · rw [List.getElem?_append_left (by simpa using hi), Memory.readRun_getElem? draw m off l1 i hi]
  · rw [List.getElem?_append_right (by simp; omega), Memory.readRun_length,
      Memory.readRun_getElem? draw m 0 l2 (i - l1) (by omega), Nat.zero_add]

/-- The reset storage has the canonical form. -/
theorem reset_storage_wf : State.reset.storage.wf := List.Pairwise.nil

end Sys2Proof.Machine
end

