-- ==== Sys2Proof/Laws/Ops.lean ====
section
/-! SUPPORT. One inversion lemma per meaning and per part of a step: if it answers a next state, then one of
these cases holds. Later proofs cite these and do not unfold the definitions. -/

namespace Sys2Proof.Machine

variable {s t : State}

/-- Everything INIT can do. -/
theorem execInit_next (h : execInit s = .next t) :
    (s.life = .awaiting ∧ capOk s.cfg.C s.cfg.W = true ∧ t = s.construct) ∨
    (s.life = .awaiting ∧ capOk s.cfg.C s.cfg.W = false ∧ t = s.raiseInvalidCapacity) ∨
    (s.life = .held ∧ t = s) ∨ ((∃ c, s.life = .failed c) ∧ t = s) := by
  unfold execInit at h
  split at h
  · split at h <;> simp_all
  · simp_all
  · cases h
  · simp_all

/-- Everything PUT can do. -/
theorem execPut_next {plen : Nat} (h : execPut plen s = .next t) :
    t = s ∨
    (s.life = .running ∧ s.wd.pPhase = .idle ∧ s.invOkW = true ∧ plen ≤ s.source.length ∧
      ((s.cfg.block = .sync ∧ t = s.putAtomic plen) ∨
       (s.cfg.block = .async ∧ t = s.acceptPut plen))) := by
  unfold execPut at h
  split at h
  · exact .inl (by simpa using h.symm)
  · cases h
  · exact .inl (by simpa using h.symm)
  · split_ifs at h with h1 h2 h3
    · exact .inl (by simpa using h.symm)
    · refine .inr ⟨‹_›, by simpa using h1, by simpa using h2, by simpa [sourceSuffices] using h3, ?_⟩
      split at h <;> simp_all

/-- Everything GET can do. -/
theorem execGet_next {clen : Nat} (h : execGet clen s = .next t) :
    t = s ∨
    (s.life = .running ∧ s.rd.cPhase = .idle ∧ s.invOkR = true ∧
      ((s.cfg.block = .sync ∧ t = s.getAtomic clen) ∨
       (s.cfg.block = .async ∧ t = s.acceptGet clen))) := by
  unfold execGet at h
  split at h
  · exact .inl (by simpa using h.symm)
  · cases h
  · exact .inl (by simpa using h.symm)
  · split_ifs at h with h1 h2
    · exact .inl (by simpa using h.symm)
    · refine .inr ⟨‹_›, by simpa using h1, by simpa using h2, ?_⟩
      split at h <;> simp_all

/-- The word on `p_cmd` is a PUT or a PNOP. -/
theorem decodeP_cases (L w : Nat) :
    (w % 2 = 1 ∧ decodeP L w = .put (bitSlice L 1 w)) ∨ (w % 2 = 0 ∧ decodeP L w = .pnop) := by
  unfold decodeP
  have h : bitSlice 0 0 w = w % 2 := by simp [bitSlice]
  rw [h]
  split_ifs <;> simp_all

/-- The word on `c_cmd` is a GET or a CNOP. -/
theorem decodeC_cases (L w : Nat) :
    (w % 2 = 1 ∧ decodeC L w = .get (bitSlice L 1 w)) ∨ (w % 2 = 0 ∧ decodeC L w = .cnop) := by
  unfold decodeC
  have h : bitSlice 0 0 w = w % 2 := by simp [bitSlice]
  rw [h]
  split_ifs <;> simp_all

/-- The reset word is INIT or run. -/
theorem decodeR_cases (w : Nat) :
    (w % 2 = 0 ∧ decodeR w = .ok .init) ∨ (w % 2 = 1 ∧ decodeR w = .error .run) := by
  unfold decodeR
  have h : bitSlice 0 0 w = w % 2 := by simp [bitSlice]
  rw [h]
  split_ifs <;> simp_all

/-- Two ports answer a next state only if each of them does. -/
theorem joinPorts_next {p c : Host.Outcome State Fault Refusal} (h : joinPorts p c = .next t) :
    ∃ sp sc, p = .next sp ∧ c = .next sc ∧ t = sp.setRd sc.rd := by
  unfold joinPorts at h
  split at h <;> simp_all

/-- Everything one agent of `async_fifo` can do. -/
theorem agentStep_next {a : Agent} (h : agentStep a s = .next t) :
    (a = .host ∧ t = s) ∨
    (a = .prod ∧ s.wd.pPhase = .idle ∧ exec s.producerInstr s = .next t) ∨
    (a = .prod ∧ s.wd.pPhase ≠ .idle ∧ t = s.prodStep) ∨
    (a = .cons ∧ s.rd.cPhase = .idle ∧ exec s.consumerInstr s = .next t) ∨
    (a = .cons ∧ s.rd.cPhase ≠ .idle ∧ t = s.consStep) ∨
    (a = .sw2r ∧ t = s.syncW2R) ∨ (a = .sr2w ∧ t = s.syncR2W) := by
  unfold agentStep at h
  split at h
  · simp_all
  · split at h <;> simp_all
  · split at h <;> simp_all
  · simp_all
  · simp_all

/-- Everything a step of a running ring can do: reset stays released, every check output is 1, and the block's
own step follows on the latched ports. -/
theorem step_running_next (hlife : s.life = .running) (h : step s = .next t) :
    s.nextFrame.pins.rstN % 2 = 1 ∧ s.checksOk = true ∧
    ((s.cfg.block = .sync ∧ bothPorts s.latchFrame = .next t) ∨
     (s.cfg.block = .async ∧ agentStep s.nextFrame.agent s.latchFrame = .next t)) := by
  unfold step portStep at h
  rcases decodeR_cases s.latchFrame.pins.rstN with ⟨h0, hd⟩ | ⟨h1, hd⟩ <;> rw [hd] at h
  · simp [exec, execInit, hlife] at h
  · rw [State.releaseReset_of_not_held (by simp [hlife])] at h
    simp only [runStep, State.latchFrame_life, hlife] at h
    split_ifs at h with h2
    · refine ⟨h1, by simpa using h2, ?_⟩
      revert h
      rw [State.latchFrame_cfg]
      cases s.cfg.block <;> simp

end Sys2Proof.Machine
end

