-- ==== Sys2Proof/Laws/PerInstr.lean ====
section
/-! SUPPORT. Per-instruction lemmas. -/

namespace Sys2Proof.Laws

/-- The word of a well-formed operation fits the port it is presented on. -/
def EncodeFits.Statement (i : Instr) : Prop :=
  ∀ L, i.wf L = true → encode i < 2 ^ portWidth L i.port

theorem EncodeFits.init : EncodeFits.Statement .init := by
  intro L _
  simp [encode, portWidth, Instr.port]

theorem EncodeFits.put (plen : Nat) : EncodeFits.Statement (.put plen) := by
  intro L h
  simp only [Instr.wf, fitsIn, decide_eq_true_eq] at h
  simp only [encode, portWidth, Instr.port, Nat.pow_succ]
  omega

theorem EncodeFits.pnop : EncodeFits.Statement .pnop := by
  intro L _
  simp [encode]

theorem EncodeFits.get (clen : Nat) : EncodeFits.Statement (.get clen) := by
  intro L h
  simp only [Instr.wf, fitsIn, decide_eq_true_eq] at h
  simp only [encode, portWidth, Instr.port, Nat.pow_succ]
  omega

theorem EncodeFits.cnop : EncodeFits.Statement .cnop := by
  intro L _
  simp [encode]

end Sys2Proof.Laws
end

