-- ==== Sys2Proof/Laws/Safety.lean ====
section
/-! SUPPORT. The small lemmas of the invariants and of the end of a run: what does not matter to them, and what a
step without a frame is. -/

namespace Sys2Proof.Machine

/-- What is still to come does not matter to the view law. -/
theorem ViewLaw.withInputs {s : State} {h : History} (v : ViewLaw s h) (l : List Frame) :
    ViewLaw { s with inputs := l } h :=
  ⟨v.writeCursor, v.readCursor, v.wgray, v.rgray, v.rqWgray, v.wqRgray, v.ks_length, v.ds_length, v.ks_sorted,
    v.ds_sorted⟩

/-- What is still to come does not matter to the invariant of `async_fifo`. -/
theorem AsyncInv.withInputs {s : State} {h : History} (i : AsyncInv s h) (l : List Frame) :
    AsyncInv { s with inputs := l } h :=
  ⟨i.legal, i.block, i.life, i.view.withInputs l,
    ⟨i.counts.dSeen_le, i.counts.read_le, i.counts.kSeen_le, i.counts.write_le⟩, i.put, i.get, i.storage_wf,
    i.storage_within⟩

/-- What is still to come does not matter to the invariant of `sync_fifo`. -/
theorem SyncInv.withInputs {s : State} (i : SyncInv s) (l : List Frame) : SyncInv { s with inputs := l } :=
  ⟨i.legal, i.block, i.life, i.writeCursor_fits, i.readCursor_fits, i.distance, i.pPhase, i.cPhase, i.storage_wf,
    i.storage_within⟩

/-- With a frame to come, that frame is the next one. -/
theorem State.nextFrame_cons (s : State) (f : Frame) (l : List Frame) :
    ({ s with inputs := f :: l } : State).nextFrame = f := rfl

/-- With no frame to come and both ports in `IDLE`, no agent steps. -/
theorem State.nextFrame_over {s : State} (hi : s.inputs = []) (hp : s.wd.pPhase = .idle)
    (hc : s.rd.cPhase = .idle) : s.nextFrame = Frame.idle := by
  simp [State.nextFrame, State.restFrame, hi, hp, hc, Frame.idle]

/-- With no frame to come, a PUT in flight is the next to step. -/
theorem State.nextFrame_put {s : State} (hi : s.inputs = []) (hp : s.wd.pPhase ≠ .idle) :
    s.nextFrame = { agent := .prod, pins := .idle } := by
  simp [State.nextFrame, State.restFrame, hi, hp, Frame.idle]

/-- With no frame to come and the producer port in `IDLE`, a GET in flight is the next to step. -/
theorem State.nextFrame_get {s : State} (hi : s.inputs = []) (hp : s.wd.pPhase = .idle)
    (hc : s.rd.cPhase ≠ .idle) : s.nextFrame = { agent := .cons, pins := .idle } := by
  simp [State.nextFrame, State.restFrame, hi, hp, hc, Frame.idle]

/-- A schedule in two parts. -/
theorem runAgents_append (a b : List Agent) (s : State) : runAgents (a ++ b) s = runAgents b (runAgents a s) := by
  simp [runAgents, List.foldl_append]

/-- The end of a run, read off the inputs and the two phases (R138). -/
theorem State.runOver_iff {s : State} :
    s.runOver = true ↔
      (∀ f ∈ s.inputs, f.presentsCommand = false) ∧ s.wd.pPhase = .idle ∧ s.rd.cPhase = .idle := by
  simp [State.runOver, and_assoc]

end Sys2Proof.Machine
end

