-- ==== Sys2Proof/Tests/Slice0.lean ====
section
/-! SUPPORT. Tests on fixed values, each expected result taken from the spec (spec/95_test_vectors.md and the rules'
own examples), and a witness for the hypotheses of every statement that has some. -/

namespace Sys2Proof.Tests

open Sys2Proof.Machine

/-! ### Helpers -/

/-- The parameters of the spec's running examples, for either block. -/
def cfg8 (block : Block) : Config := { block := block, C := 8, W := 4, nSync := 2 }

/-- A ring just constructed. -/
def fresh (block : Block) : State := State.built (cfg8 block) []

/-- A `sync_fifo` with given cursors, storage and source. -/
def syncAt (w r : Nat) (storage : Memory) (src : List Byte) : State :=
  { fresh .sync with
    wd := { WriteDomain.reset 2 with writeCursor := w }
    rd := { ReadDomain.reset 2 with readCursor := r }
    storage := storage
    pins := { Pins.idle with pData := src } }

/-- A frame with reset released. -/
def frame (agent : Agent) (p : Nat) (src : List Byte) (c : Nat) : Frame :=
  { agent := agent, pins := { rstN := 1, pCmd := p, pData := src, cCmd := c } }

/-- The frame that asserts reset, with a PUT word and a GET word beside it. -/
def resetFrame : Frame := { agent := .host, pins := { rstN := 0, pCmd := 3, pData := [0x41], cCmd := 3 } }

/-- The next state of an outcome, if it is one. -/
def nextOf (o : Host.Outcome State Fault Refusal) : Option State :=
  match o with
  | .next s => some s
  | .fault _ => none
  | .refused _ => none

/-- The refusal of an outcome, if it is one. -/
def refusalOf (o : Host.Outcome State Fault Refusal) : Option Refusal :=
  match o with
  | .next _ => none
  | .fault _ => none
  | .refused r => some r

/-- `A B C D E F` in ASCII. -/
def abcdef : List Byte := [0x41, 0x42, 0x43, 0x44, 0x45, 0x46]

/-- Storage `[1 2 3 4 5 . . .]` of Program 1. -/
def cells12345 : Memory := [(0, 0x31), (1, 0x32), (2, 0x33), (3, 0x34), (4, 0x35)]

/-- Storage `[D E F 4 5 A B C]` of Program 1. -/
def cellsWrapped : Memory :=
  [(0, 0x44), (1, 0x45), (2, 0x46), (3, 0x34), (4, 0x35), (5, 0x41), (6, 0x42), (7, 0x43)]

/-! ### Well-formedness: an ill-formed term for each check -/

theorem test_put_length_too_wide_refused : (Instr.put 16).wf 4 = false := by decide
theorem test_get_length_too_wide_refused : (Instr.get 16).wf 4 = false := by decide
theorem test_largest_lengths_wellformed : (Instr.put 15).wf 4 = true ∧ (Instr.get 15).wf 4 = true := by decide

/-! ### Decoding: words written out from R52, R53, R54 and the tables of spec/95_test_vectors.md 2.7 -/

theorem test_decode_init : decode 4 .reset 0b0 = .ok .init := rfl
theorem test_decode_run_is_no_instruction : decode 4 .reset 0b1 = .error .run := rfl
/-- bits `[4:1] = 0101`, bit 0 = 1. -/
theorem test_decode_put_5 : decode 4 .producer 0b01011 = .ok (.put 5) := rfl
/-- 9 bits: `00001001` then 1. -/
theorem test_decode_put_9_wide : decode 8 .producer 0x013 = .ok (.put 9) := rfl
/-- bits `[4:1] = 0110`, bit 0 = 1. -/
theorem test_decode_get_6 : decode 4 .consumer 0b01101 = .ok (.get 6) := rfl
theorem test_decode_get_all_ones : decode 32 .consumer 0x1FFFFFFFF = .ok (.get 4294967295) := rfl
theorem test_decode_pnop : decode 4 .producer 0b00000 = .ok .pnop := rfl
/-- The length field of an idle word is ignored. -/
theorem test_decode_pnop_ignores_length : decode 4 .producer 0b10110 = .ok .pnop := rfl
theorem test_decode_cnop : decode 4 .consumer 0b00000 = .ok .cnop := rfl
theorem test_decode_cnop_ignores_length : decode 4 .consumer 0b11110 = .ok .cnop := rfl
theorem test_encode_put_13 : encode (.put 13) = 0x00000001B := rfl
theorem test_table_word_put : decodeTableWord 8 0x0B = some (.put 5) := rfl

/-! ### Indexer: rows of 2.1 to 2.4 -/

theorem test_capOk_rows :
    [capOk 0 32, capOk 1 1, capOk 2 1, capOk 6 32, capOk 8 3, capOk 8 4, capOk (2 ^ 31) 32, capOk (2 ^ 32) 32]
      = [false, true, false, false, false, true, true, false] := by decide
theorem test_index_dist_rows :
    [index 8 13, index 8 15, cursorDist 4 11 5, cursorDist 4 3 13, cursorDist 4 0 15, cursorDist 4 5 6]
      = [5, 7, 6, 6, 1, 15] := by decide
theorem test_dist_wide : cursorDist 32 0x00000004 0xFFFFFFFA = 10 ∧ index 16 0xFFFFFFFA = 10 := by decide
theorem test_widths :
    [offsetWidth 1, countWidth 1, offsetWidth 8, countWidth 8, offsetWidth 4096] = [0, 1, 3, 4, 12] := by decide
theorem test_adv_rows : [adv 4 5 6, adv 4 13 6, adv 4 15 1, adv 4 14 7] = [11, 3, 0, 5] := by decide
theorem test_split_rows :
    [seg1 8 5 6, seg2 8 5 6, seg1 8 0 8, seg2 8 0 8, seg1 8 7 8, seg2 8 7 8, seg1 8 14 8, seg2 8 14 8]
      = [3, 3, 8, 0, 1, 7, 2, 6] := by decide
theorem test_gray_table :
    (List.range 16).map bin2gray = [0, 1, 3, 2, 6, 7, 5, 4, 12, 13, 15, 14, 10, 11, 9, 8] := by decide
theorem test_gray_decode_rows : [gray2bin 4 0b1011, gray2bin 4 0b1000, gray2bin 4 0b0100] = [13, 15, 7] := by decide
theorem test_gray_wide : bin2gray 0x12345678 = 0x1B2E7D44 ∧ gray2bin 32 0x1B2E7D44 = 0x12345678 := by decide

/-! ### Operations: single steps of the programs of Part 3 -/

/-- Program 1, row 1. -/
theorem test_init_empties :
    (nextOf (exec .init (State.unbuilt (cfg8 .sync) []))).map
      (fun t => (t.wd.writeCursor, t.rd.readCursor, t.empty, t.full)) = some (0, 0, true, false) := by decide
/-- Program 6, row 2. -/
theorem test_init_invalid_capacity :
    (nextOf (exec .init (State.unbuilt { block := .sync, C := 12, W := 32, nSync := 2 } []))).map State.life
      = some (.failed 12) := by decide
/-- Program 1, row 4. -/
theorem test_put_wraps :
    (nextOf (exec (.put 6) (syncAt 5 5 cells12345 abcdef))).map
      (fun t => (t.wd.writeCursor, t.wd.pReturn, t.storage)) = some (11, some 6, cellsWrapped) := by decide
/-- 2.5, row 4: a full ring takes nothing. -/
theorem test_put_full_returns_zero :
    (nextOf (exec (.put 1) (syncAt 10 2 cellsWrapped [0x5A]))).map
      (fun t => (t.wd.writeCursor, t.wd.pReturn, t.storage)) = some (10, some 0, cellsWrapped) := by decide
/-- Program 1, row 5. -/
theorem test_get_wraps :
    (nextOf (exec (.get 6) (syncAt 11 5 cellsWrapped []))).map (fun t => (t.rd.readCursor, t.rd.cReturn))
      = some (11, some { count := 6, data := abcdef }) := by decide
/-- Program 2, row 5: an empty ring returns 0. -/
theorem test_get_empty_returns_zero :
    (nextOf (exec (.get 10) (syncAt 4 4 cells12345 []))).map (fun t => (t.rd.readCursor, t.rd.cReturn))
      = some (4, some { count := 0, data := [] }) := by decide
theorem test_pnop : nextOf (exec .pnop (syncAt 5 0 cells12345 [])) = some (syncAt 5 0 cells12345 []) := by decide
theorem test_cnop : nextOf (exec .cnop (syncAt 5 0 cells12345 [])) = some (syncAt 5 0 cells12345 []) := by decide
/-- 2.6, row 1: a full ring, `PUT "Z", 1 || GET 3`. -/
theorem test_same_step_full :
    (nextOf (step { syncAt 8 0 cellsWrapped [] with inputs := [frame .host 3 [0x5A] 7] })).map
      (fun t => (t.wd.writeCursor, t.wd.pReturn, t.rd.readCursor, t.rd.cReturn))
      = some (8, some 0, 3, some { count := 3, data := [0x44, 0x45, 0x46] }) := by decide
/-- R118 in the example of section 2 of spec/42_async_fifo.md: the first ADV1 takes the cursor from 5 to 6 and
`wgray` from 0111 to 0101. -/
theorem test_adv1_put :
    let t := State.adv1Put { fresh .async with
      wd := { WriteDomain.reset 2 with writeCursor := 5, wgray := 0b0111, pPhase := .advance, pLeft := 6 } }
    (t.wd.writeCursor, t.wd.wgray, t.wd.pLeft) = (6, 0b0101, 5) := by decide
/-- Program 4, rows 5 and 7: two SYNC steps of W2R. -/
theorem test_w2r_shift : shiftIn 0b0010 [0b0011, 0b0000] = [0b0010, 0b0011] := by decide
/-- The word a host places runs as the first instruction after reset. -/
theorem test_withFetchWord_put :
    (nextOf (step (State.reset.withFetchWord 8 0x0B))).map (fun t => (t.wd.writeCursor, t.wd.pReturn))
      = some (5, some 5) := by decide

/-! ### Witnesses: the hypotheses of the statements can be met -/

/-- IndexerResultsFitTheirWidths, with witness_smallest_machine, witness_advances and witness_split. -/
theorem witness_legal_capacity : capOk 8 4 = true ∧ (13 : Nat) < 2 ^ 4 := by decide
theorem witness_smallest_machine : capOk 1 1 = true ∧ (1 : Nat) < 2 ^ 1 := by decide
/-- DistanceSurvivesCursorOverflow: the totals 19 and 13 of R79. -/
theorem witness_distance : capOk 8 4 = true ∧ 13 ≤ 19 ∧ 19 - 13 ≤ 8 := by decide
/-- AdvancesKeepInvariantTwo, ProducerAndConsumerRegionsAreDisjoint: cursors 3 and 13, six bytes queued. -/
theorem witness_advances : capOk 8 4 = true ∧ 3 < 2 ^ 4 ∧ 13 < 2 ^ 4 ∧ invOk 8 4 3 13 = true ∧ 1 < free 8 4 3 13 ∧
    5 < queued 4 3 13 := by decide
/-- SplitNeverOverruns: a split transfer and the largest one. -/
theorem witness_split : capOk 8 4 = true ∧ 5 < 2 ^ 4 ∧ 8 ≤ 8 ∧ 0 < seg2 8 5 8 ∧ 0 < 8 ∧ 7 < 8 := by decide
/-- GrayUnitStepChangesOneBit: a word with trailing ones, and the wrap. -/
theorem witness_gray : 0 < 4 ∧ 7 < 2 ^ 4 ∧ 15 < 2 ^ 4 := by decide
/-- DecodeOfEncodeIsTheInstruction. -/
theorem witness_wellformed : (Instr.put 15).wf 4 = true ∧ (Instr.get 0).wf 4 = true ∧ Instr.init.wf 4 = true ∧
    Instr.pnop.wf 4 = true ∧ Instr.cnop.wf 4 = true := by decide
/-- EveryWordHasItsMeaning: the largest PUT and GET word, and an idle word. -/
theorem witness_words : 0x1F < 2 ^ (4 + 1) ∧ 0x1F % 2 = 1 ∧ 0x1E < 2 ^ (4 + 1) ∧ 0x1E % 2 = 0 := by decide
/-- InitConstructsAnEmptyRing, ReleasedConstructionIsTheStartOfARun, CommandBeforeInitIsRefused. -/
theorem witness_before_init : (State.unbuilt (cfg8 .async) []).life = .awaiting ∧
    capOk (State.unbuilt (cfg8 .async) []).cfg.C (State.unbuilt (cfg8 .async) []).cfg.W = true := by decide
/-- InvalidCapacityIsFatalToConstruction, both clauses. -/
theorem witness_invalid_capacity :
    (State.unbuilt { block := .sync, C := 16, W := 4, nSync := 2 } []).life = .awaiting ∧ capOk 16 4 = false ∧
    ((State.unbuilt { block := .sync, C := 16, W := 4, nSync := 2 } []).raiseInvalidCapacity).life = .failed 16 := by
  decide
/-- ResetOverridesCommandWords, first and last clause. -/
theorem witness_reset_mid_run :
    let s := { fresh .sync with inputs := [resetFrame] }
    s.nextFrame.pins.rstN % 2 = 0 ∧ s.life = .running := by decide
/-- ResetOverridesCommandWords, the clause of a held reset. -/
theorem witness_reset_held :
    let s := { (State.unbuilt (cfg8 .sync) []).construct with inputs := [resetFrame] }
    s.nextFrame.pins.rstN % 2 = 0 ∧ s.life = .held := by decide
/-- ParametersNeverChange. -/
theorem witness_step_goes_on : ∃ t, step (fresh .async) = .next t ∧ exec (.get 3) (fresh .async) = .next
    ((fresh .async).acceptGet 3) := ⟨_, rfl, rfl⟩
/-- SyncInvariantHoldsAfterReset and AsyncInvariantHoldsAfterReset, GetOnAFreshRingReturnsZero. -/
theorem witness_legal_configs : LegalConfig (cfg8 .sync) ∧ (cfg8 .sync).block = .sync ∧ LegalConfig (cfg8 .async) ∧
    (cfg8 .async).block = .async := by decide

/-- SyncInv of a ring with cursors 11 and 5, six bytes queued across the end of storage: SyncPutResult,
SyncGetResult and the other statements that assume it. -/
theorem witness_sync_inv : SyncInv (syncAt 11 5 cellsWrapped abcdef) :=
  ⟨by decide, rfl, rfl, by decide, by decide, by decide, rfl, rfl, by decide, by decide⟩
theorem witness_sync_source : 6 ≤ (syncAt 11 5 cellsWrapped abcdef).source.length := by decide
/-- RoundTripThroughAnEmptyRing, GetOnAnEmptyRingLeavesTheDestination: an empty ring with cursors at 5. -/
theorem witness_sync_empty : SyncInv (syncAt 5 5 cells12345 abcdef) ∧
    (syncAt 5 5 cells12345 abcdef).wd.writeCursor = (syncAt 5 5 cells12345 abcdef).rd.readCursor ∧
    6 ≤ (syncAt 5 5 cells12345 abcdef).source.length :=
  ⟨⟨by decide, rfl, rfl, by decide, by decide, by decide, rfl, rfl, by decide, by decide⟩, rfl, by decide⟩
/-- WrapAroundScenarioSplitsThreeAndThree. -/
theorem witness_wrap_around :
    let s := syncAt 5 5 cells12345 abcdef
    s.cfg = { block := .sync, C := 8, W := 4, nSync := 2 } ∧ s.life = .running ∧
    s.wd = { WriteDomain.reset 2 with writeCursor := 5 } ∧ s.rd = { ReadDomain.reset 2 with readCursor := 5 } ∧
    s.storage = [(0, 0x31), (1, 0x32), (2, 0x33), (3, 0x34), (4, 0x35)] ∧
    s.pins.pData = [0x41, 0x42, 0x43, 0x44, 0x45, 0x46] := by decide
/-- SameStepPutAndGetUseTheOldState, SyncStepsKeepTheInvariant, SyncStepsAreTotal: both words on the ports. -/
theorem witness_same_step :
    let s := { syncAt 11 5 cellsWrapped [] with inputs := [frame .host 0x0D abcdef 0x1F] }
    SyncInv s ∧ s.nextFrame.pins.rstN % 2 = 1 ∧ decodeP s.cfg.W s.nextFrame.pins.pCmd = .put 6 ∧
    decodeC s.cfg.W s.nextFrame.pins.cCmd = .get 15 ∧ 6 ≤ s.nextFrame.pins.pData.length ∧
    (∃ t, step s = .next t) :=
  ⟨⟨by decide, rfl, rfl, by decide, by decide, by decide, rfl, rfl, by decide, by decide⟩, by decide, by decide,
    by decide, by decide, ⟨_, rfl⟩⟩
/-- ShortSourceIsRefused: one byte offered for two. -/
theorem witness_short_source :
    let s := syncAt 0 0 [] [0x41]
    s.life = .running ∧ s.wd.pPhase = .idle ∧ s.invOkW = true ∧ s.source.length < 2 ∧
    refusalOf (exec (.put 2) s) = some .sourceTooShort := by decide
/-- BrokenInvariantIsAFault in `async_fifo`: both views past what the cursors allow. -/
theorem witness_broken_invariant_async :
    let s := { fresh .async with
      wd := { WriteDomain.reset 2 with writeCursor := 5, wqRgray := [bin2gray 6, bin2gray 6] }
      rd := { ReadDomain.reset 2 with readCursor := 6, rqWgray := [bin2gray 5, bin2gray 5] } }
    s.life = .running ∧ s.checksOk = false ∧ s.nextFrame.pins.rstN % 2 = 1 ∧ s.invOkW = false ∧ s.wd.pPhase = .idle ∧
    s.invOkR = false ∧ s.rd.cPhase = .idle := by decide
/-- BrokenInvariantIsAFault, all clauses: the unreachable cursors 5 and 6 of 2.2. -/
theorem witness_broken_invariant :
    let s := syncAt 5 6 [] []
    s.life = .running ∧ s.checksOk = false ∧ s.nextFrame.pins.rstN % 2 = 1 ∧ s.invOkW = false ∧ s.wd.pPhase = .idle ∧
    s.invOkR = false ∧ s.rd.cPhase = .idle := by decide
/-- FifoLawsAlongEveryRun: a run of `sync_fifo` whose first step is a PUT and whose second a GET. -/
theorem witness_reachable :
    let inputs := [frame .host 0x0D abcdef 0, frame .host 0 [] 0x0D]
    ∃ s g h t, Reachable (cfg8 .sync) inputs s g h ∧ g.accepted = abcdef ∧ step s = .next t ∧
      t.rd.cReturn = some { count := 6, data := abcdef } :=
  ⟨_, _, _, _, .step .built rfl, by decide, rfl, by decide⟩

/-- Five bytes accepted and delivered, then `A` to `F` accepted. -/
def elevenAccepted : Streams := { accepted := [0x31, 0x32, 0x33, 0x34, 0x35] ++ abcdef,
                                  delivered := [0x31, 0x32, 0x33, 0x34, 0x35] }

/-- SyncFifoLaw: the clauses of the FIFO law, with the same ring as witness_sync_inv, and a step that goes on. -/
theorem witness_sync_fifo : SyncFifo (syncAt 11 5 cellsWrapped abcdef) elevenAccepted ∧
    (∃ t, step (syncAt 11 5 cellsWrapped abcdef) = .next t) :=
  ⟨⟨by decide, by decide, by decide, by decide, fun k h1 h2 => by
      have h3 : 5 ≤ k := h1
      have h4 : k < 11 := h2
      interval_cases k <;> decide⟩, ⟨_, rfl⟩⟩

/-- UnwrittenBytesNeverInfluenceAStep: the same ring, and witness_async_fifo for `async_fifo`. -/
theorem witness_queued_stored : QueuedStored (syncAt 11 5 cellsWrapped abcdef) := fun j h => by
  have h1 : j < 6 := h
  interval_cases j <;> decide

/-- EachPortChangesOnlyItsOwnSide: an operation of each port that goes on. -/
theorem witness_ports : (∃ t, exec (.get 2) (syncAt 5 0 cells12345 []) = .next t) ∧ (Instr.get 2).port = .consumer ∧
    (∃ t, exec (.put 2) (syncAt 5 0 cells12345 abcdef) = .next t) ∧ (Instr.put 2).port = .producer :=
  ⟨⟨_, rfl⟩, rfl, ⟨_, rfl⟩, rfl⟩
/-- OnlyGrayRegistersAndStorageCross: another domain with the same Gray register and everything else changed. -/
theorem witness_other_domain :
    ({ WriteDomain.reset 2 with pPhase := .copy, pN := 3 } : WriteDomain).wgray = (fresh .async).wd.wgray ∧
    ({ ReadDomain.reset 2 with cPhase := .copy, cN := 3 } : ReadDomain).rgray = (fresh .async).rd.rgray := by decide

/-- An `async_fifo` with the producer in a given phase and its turn next. -/
def putting (phase : Phase) (left : Nat) : State :=
  { fresh .async with
    wd := { WriteDomain.reset 2 with pPhase := phase, pReq := 3, pOffer := abcdef, pN := 3, pLeft := left }
    inputs := [frame .prod 0x07 abcdef 0] }
/-- An `async_fifo` with the consumer in a given phase and its turn next. -/
def getting (phase : Phase) (left : Nat) : State :=
  { fresh .async with
    rd := { ReadDomain.reset 2 with cPhase := phase, cReq := 3, cN := 0, cLeft := left }
    inputs := [frame .cons 0 [] 0x07] }

/-- PutPhaseSteps, every clause, EachAgentWritesOnlyItsOwnRegisters, StepRunsTheDecodedOperations (the producer's
clause, phase `idle`). -/
theorem witness_put_phases :
    ∀ s ∈ [putting .idle 0, putting .sample 0, putting .copy 0, putting .barrier 0, putting .advance 1,
        putting .advance 0, putting .done 0],
      s.life = .running ∧ s.cfg.block = .async ∧ s.checksOk = true ∧ s.nextFrame.agent = .prod ∧
      s.nextFrame.pins.rstN % 2 = 1 ∧ (nextOf (step s)).isSome = true := by decide
/-- GetPhaseSteps, every clause, and StepRunsTheDecodedOperations (the consumer's clause, phase `idle`). -/
theorem witness_get_phases :
    ∀ s ∈ [getting .idle 0, getting .sample 0, getting .copy 0, getting .barrier 0, getting .advance 1,
        getting .advance 0, getting .done 0],
      s.life = .running ∧ s.cfg.block = .async ∧ s.checksOk = true ∧ s.nextFrame.agent = .cons ∧
      s.nextFrame.pins.rstN % 2 = 1 ∧ (nextOf (step s)).isSome = true := by decide
/-- StepRunsTheDecodedOperations, the clauses of `sync_fifo`: only the producer's word, only the consumer's. -/
theorem witness_step_sync :
    ∀ f ∈ [frame .host 0x0D abcdef 0, frame .host 0 [] 0x0D],
      let s := { syncAt 5 5 cells12345 [] with inputs := [f] }
      s.nextFrame.pins.rstN % 2 = 1 ∧ s.life = .running ∧ s.checksOk = true ∧ s.cfg.block = .sync ∧
      (s.nextFrame.pins.cCmd % 2 = 0 ∨ s.nextFrame.pins.pCmd % 2 = 0) := by decide
/-- EachAgentWritesOnlyItsOwnRegisters: a step of every agent. -/
theorem witness_each_agent :
    ∀ a ∈ [Agent.host, Agent.prod, Agent.cons, Agent.sw2r, Agent.sr2w],
      let s := { fresh .async with inputs := [frame a 0 [] 0] }
      s.cfg.block = .async ∧ s.life = .running ∧ s.nextFrame.agent = a ∧ (nextOf (step s)).isSome = true := by decide
/-- StepRunsTheDecodedOperations, the clause of a held reset that is released. -/
theorem witness_released :
    let s := { (State.unbuilt (cfg8 .sync) []).construct with inputs := [frame .host 0x0D abcdef 0] }
    s.life = .held ∧ s.nextFrame.pins.rstN % 2 = 1 ∧ (nextOf (step s)).isSome = true := by decide
/-- SyncStepShiftsTheChain, both clauses. -/
theorem witness_sync_steps :
    ∀ a ∈ [Agent.sw2r, Agent.sr2w],
      let s := { fresh .async with inputs := [frame a 0 [] 0] }
      s.life = .running ∧ s.cfg.block = .async ∧ s.checksOk = true ∧ s.nextFrame.pins.rstN % 2 = 1 ∧
      s.nextFrame.agent = a := by decide
/-- AsyncAcceptLatchesTheRequest, AsyncPutNetEffectIsPutCore, AsyncGetNetEffectIsGetCore. -/
theorem witness_async_idle :
    let s := { fresh .async with pins := { Pins.idle with pData := abcdef } }
    s.life = .running ∧ s.cfg.block = .async ∧ s.wd.pPhase = .idle ∧ s.rd.cPhase = .idle ∧ s.invOkW = true ∧
    s.invOkR = true ∧ 6 ≤ s.source.length ∧ fitsIn s.cfg.W s.wd.writeCursor = true ∧
    s.wd.wgray = bin2gray s.wd.writeCursor ∧ fitsIn s.cfg.W s.rd.readCursor = true ∧
    s.rd.rgray = bin2gray s.rd.readCursor := by decide
/-- WordOnABusyPortHasNoEffect, every clause. -/
theorem witness_busy : (State.unbuilt (cfg8 .sync) []).construct.life = .held ∧
    (State.unbuilt (cfg8 .sync) []).raiseInvalidCapacity.life = .failed 8 ∧
    ((putting .copy 0).life = .running ∧ (putting .copy 0).wd.pPhase ≠ .idle) ∧
    ((getting .copy 0).life = .running ∧ (getting .copy 0).rd.cPhase ≠ .idle) := by decide

/-- An `async_fifo` with two bytes published and seen, a PUT of three in its COPY phase and a GET of two in its
COPY phase. -/
def bothCopying : State :=
  { fresh .async with
    storage := [(0, 0x31), (1, 0x32)]
    wd := { WriteDomain.reset 2 with
      writeCursor := 2, wgray := 0b0011, pPhase := .copy, pReq := 3, pOffer := [0x41, 0x42, 0x43], pN := 3, pL1 := 3,
      pL2 := 0, pSrc := [0x41, 0x42, 0x43] }
    rd := { ReadDomain.reset 2 with
      rqWgray := [0b0011, 0b0011], cPhase := .copy, cReq := 8, cN := 2, cL1 := 2, cL2 := 0 }
    inputs := [frame .prod 0 [] 0] }

/-- AsyncInv with transactions in flight: TransactionsInFlightTouchDifferentCells, AsyncStepsKeepTheInvariant,
AsyncStepsAreTotal, GrayRegistersChangeInOneBit, SampledCountsAreConservative, AsyncConditionsAreConservative, RunsComeToTheirEnd,
AsyncDistancesAreDifferencesOfTotals. -/
theorem witness_async_inv :
    AsyncInv bothCopying { K := 2, D := 0, ks := [2, 2], ds := [0, 0] } ∧
    bothCopying.wd.pPhase = .copy ∧ bothCopying.rd.cPhase = .copy ∧ 2 < bothCopying.wd.pN ∧
    1 < bothCopying.rd.cN ∧ bothCopying.nextFrame.pins.rstN % 2 = 1 ∧ (∃ t, step bothCopying = .next t) :=
  ⟨⟨by decide, rfl, rfl,
      ⟨by decide, by decide, by decide, by decide, by decide, by decide, rfl, rfl, by decide, by decide⟩,
      ⟨by decide, by decide, by decide, by decide⟩,
      (by decide : (3 : Nat) = 3 ∧ 3 ≤ 8 ∧ 3 = seg1 8 2 3 ∧ 0 = seg2 8 2 3),
      (by decide : 2 ≤ 8 ∧ 2 = seg1 8 0 2 ∧ 0 = seg2 8 0 2),
      by decide, by decide⟩,
    rfl, rfl, by decide, by decide, by decide, ⟨_, rfl⟩⟩

/-- An idle, settled `async_fifo` with two bytes published and one read. -/
def settledRing : State :=
  { fresh .async with
    storage := [(0, 0x31), (1, 0x32)]
    wd := { WriteDomain.reset 2 with writeCursor := 2, wgray := 0b0011, wqRgray := [0b0001, 0b0001] }
    rd := { ReadDomain.reset 2 with readCursor := 1, rgray := 0b0001, rqWgray := [0b0011, 0b0011] }
    pins := { Pins.idle with pData := abcdef } }

/-- SettledAsyncTransactionEqualsSync, SyncStepsSettleAnIdleRing; with test_settled_schedule. -/
theorem witness_settled :
    AsyncInv settledRing { K := 2, D := 1, ks := [2, 2], ds := [1, 1] } ∧ Settled settledRing ∧
    6 ≤ settledRing.source.length :=
  ⟨⟨by decide, rfl, rfl,
      ⟨by decide, by decide, by decide, by decide, by decide, by decide, rfl, rfl, by decide, by decide⟩,
      ⟨by decide, by decide, by decide, by decide⟩, trivial, trivial, by decide, by decide⟩,
    ⟨rfl, rfl, by decide, by decide⟩, by decide⟩

/-- SettledAsyncTransactionEqualsSync: a schedule with SYNC steps between the eleven steps of a PUT of six. -/
theorem test_settled_schedule :
    let schedule := [Agent.prod, .sw2r, .prod, .sr2w] ++ List.replicate 9 .prod
    .cons ∉ schedule ∧ schedule.count .prod = 5 + 6 := by decide

/-- FifoLawsAlongEveryRun: a run of `async_fifo` that has taken source bytes at SAMPLE. -/
theorem witness_async_reachable :
    let inputs := [frame .prod 0x0D abcdef 0, frame .prod 0 [] 0]
    ∃ s g h t, Reachable (cfg8 .async) inputs s g h ∧ g.accepted = abcdef ∧ step s = .next t :=
  ⟨_, _, _, _, .step (.step .built rfl) rfl, by decide, rfl⟩

/-- AsyncFifoLaw and QueuedStored: the streams of `bothCopying`, five bytes taken and none read. -/
theorem witness_async_fifo :
    AsyncFifo bothCopying { accepted := [0x31, 0x32, 0x41, 0x42, 0x43], delivered := [] }
      { K := 2, D := 0, ks := [2, 2], ds := [0, 0] } ∧ QueuedStored bothCopying :=
  ⟨⟨by decide, rfl, rfl, fun k _ h2 => by
      have h3 : k < 2 := h2
      interval_cases k <;> decide, fun _ => rfl⟩, fun j h => by
      have h1 : j < 2 := h
      interval_cases j <;> decide⟩

/-- The PUT and the GET in flight in `bothCopying`. -/
def putOfThree : PutTxn :=
  { storage := [(0, 0x31), (1, 0x32)], writeCursor := 2, source := [0x41, 0x42, 0x43], req := 3 }
def getOfEight : GetTxn := { readCursor := 0, req := 8 }

/-- `bothCopying` with both transactions still in SAMPLE, the producer's turn next. -/
def bothSampling : State :=
  { bothCopying with
    wd := { bothCopying.wd with pPhase := .sample }
    rd := { bothCopying.rd with cPhase := .sample } }

/-- AsyncInv of `bothSampling`; whose turn is next does not matter (AsyncInv.withInputs). -/
theorem witness_sampling_inv : AsyncInv bothSampling { K := 2, D := 0, ks := [2, 2], ds := [0, 0] } :=
  ⟨by decide, rfl, rfl,
    ⟨by decide, by decide, by decide, by decide, by decide, by decide, rfl, rfl, by decide, by decide⟩,
    ⟨by decide, by decide, by decide, by decide⟩, (by decide : (3 : Nat) ≤ 3), trivial, by decide, by decide⟩

/-- A ring of two bytes, one of them read, with a frame to come. -/
def settledWith (f : Frame) : State := { settledRing with inputs := [f] }
/-- `bothSampling` and `bothCopying` with the consumer's turn next. -/
def consumerSamples : State := { bothSampling with inputs := [frame .cons 0 [] 0] }
def consumerCopies : State := { bothCopying with inputs := [frame .cons 0 [] 0] }

/-- AsyncPutKeepsToPutCoreUnderEverySchedule: ACCEPT of a PUT of six. -/
theorem witness_put_accepted :
    let s := settledWith (frame .prod 0x0D abcdef 0)
    s.nextFrame.agent = .prod ∧ s.wd.pPhase = .idle ∧ decodeP s.cfg.W s.nextFrame.pins.pCmd = .put 6 ∧
    (nextOf (step s)).isSome = true := by decide
/-- AsyncPutKeepsToPutCoreUnderEverySchedule: SAMPLE, and in `bothCopying` a step of PROD in COPY. -/
theorem witness_put_tracks :
    putOfThree.tracks 0 bothSampling ∧ bothSampling.nextFrame.agent = .prod ∧
    (nextOf (step bothSampling)).isSome = true ∧ putOfThree.tracks 0 bothCopying :=
  ⟨⟨rfl, rfl, rfl, rfl⟩, rfl, by decide, ⟨rfl, rfl, by decide, by decide, by decide, by decide⟩⟩
/-- AsyncGetKeepsToGetCoreUnderEverySchedule: ACCEPT of a GET of six. -/
theorem witness_get_accepted :
    let s := settledWith (frame .cons 0 [] 0x0D)
    s.nextFrame.agent = .cons ∧ s.rd.cPhase = .idle ∧ decodeC s.cfg.W s.nextFrame.pins.cCmd = .get 6 ∧
    (nextOf (step s)).isSome = true := by decide
/-- AsyncGetKeepsToGetCoreUnderEverySchedule: SAMPLE, COPY, and in `bothCopying` a step of PROD. -/
theorem witness_get_tracks :
    getOfEight.tracks 2 [] consumerSamples ∧ consumerSamples.nextFrame.agent = .cons ∧
    (nextOf (step consumerSamples)).isSome = true ∧ getOfEight.tracks 2 [] consumerCopies ∧
    (nextOf (step consumerCopies)).isSome = true ∧ getOfEight.tracks 2 [] bothCopying :=
  ⟨⟨rfl, rfl⟩, rfl, by decide, ⟨rfl, by decide, by decide, by decide⟩, by decide,
    ⟨rfl, by decide, by decide, by decide⟩⟩

/-- RunsComeToTheirEnd: a run that is over with a SYNC step to come. -/
theorem witness_run_over :
    let s := settledWith (frame .sw2r 0 [] 0)
    s.life = .running ∧ s.checksOk = true ∧ s.runOver = true := by decide
/-- RunsComeToTheirEnd: the frames used up with both ports in a transaction. -/
theorem witness_frames_used_up :
    AsyncInv { bothCopying with inputs := [] } { K := 2, D := 0, ks := [2, 2], ds := [0, 0] } ∧
    ({ bothCopying with inputs := [] } : State).inputs = [] :=
  ⟨witness_async_inv.1.withInputs [], rfl⟩
/-- R138: with no frame left a PUT in COPY goes on; a frame with a PUT word still to come is no end of a run. -/
theorem test_rest_goes_on :
    (nextOf (step { bothCopying with inputs := [] })).map (fun t => t.wd.pPhase) = some .barrier ∧
    (settledWith (frame .prod 0x0D abcdef 0)).runOver = false := by decide

end Sys2Proof.Tests
end

/-! ## What the ports and the agents change

The frame of every operation and of every step: the producer's side is storage and the write domain, the consumer's
the read domain, and the parameters are no one's. -/

namespace Sys2Proof.Machine

section Frames
variable {s t : State}

/-! One arm of `exec` each. -/

@[simp] theorem exec_init (s : State) : exec .init s = execInit s := rfl
@[simp] theorem exec_put (n : Nat) (s : State) : exec (.put n) s = execPut n s := rfl
@[simp] theorem exec_pnop (s : State) : exec .pnop s = .next s := rfl
@[simp] theorem exec_get (n : Nat) (s : State) : exec (.get n) s = execGet n s := rfl
@[simp] theorem exec_cnop (s : State) : exec .cnop s = .next s := rfl

/-- An operation of the producer port replaces storage and the write domain at most (R18, R150). -/
theorem exec_producer_next {i : Instr} (hi : i.port = .producer) (h : exec i s = .next t) :
    ∃ m wd, t = (s.setStorage m).setWd wd := by
  cases i with
  | init => cases hi
  | put n =>
    rw [exec_put] at h
    obtain rfl | ⟨-, -, -, -, ⟨-, rfl⟩ | ⟨-, rfl⟩⟩ := execPut_next h
    · exact ⟨t.storage, t.wd, rfl⟩
    · exact ⟨_, _, rfl⟩
    · exact ⟨s.storage, _, rfl⟩
  | pnop =>
    obtain rfl : s = t := by simpa using h
    exact ⟨s.storage, s.wd, rfl⟩
  | get n => cases hi
  | cnop => cases hi

/-- An operation of the consumer port replaces the read domain at most (R18, R150). -/
theorem exec_consumer_next {i : Instr} (hi : i.port = .consumer) (h : exec i s = .next t) :
    ∃ rd, t = s.setRd rd := by
  cases i with
  | init => cases hi
  | put n => cases hi
  | pnop => cases hi
  | get n =>
    rw [exec_get] at h
    obtain rfl | ⟨-, -, -, ⟨-, rfl⟩ | ⟨-, rfl⟩⟩ := execGet_next h
    · exact ⟨t.rd, rfl⟩
    · exact ⟨_, rfl⟩
    · exact ⟨_, rfl⟩
  | cnop =>
    obtain rfl : s = t := by simpa using h
    exact ⟨s.rd, rfl⟩

/-- A step of PROD inside a PUT replaces storage and the write domain at most (R111). -/
theorem prodStep_frame (s : State) : ∃ m wd, s.prodStep = (s.setStorage m).setWd wd := by
  unfold State.prodStep
  split
  · exact ⟨s.storage, s.wd, rfl⟩
  · exact ⟨s.storage, _, rfl⟩
  · exact ⟨_, _, rfl⟩
  · exact ⟨s.storage, _, rfl⟩
  · split
    · exact ⟨s.storage, _, rfl⟩
    · exact ⟨s.storage, _, rfl⟩
  · exact ⟨s.storage, _, rfl⟩

/-- A step of CONS inside a GET replaces the read domain at most (R111). -/
theorem consStep_frame (s : State) : ∃ rd, s.consStep = s.setRd rd := by
  unfold State.consStep
  split
  · exact ⟨s.rd, rfl⟩
  · exact ⟨_, rfl⟩
  · exact ⟨_, rfl⟩
  · exact ⟨_, rfl⟩
  · split
    · exact ⟨_, rfl⟩
    · exact ⟨_, rfl⟩
  · exact ⟨_, rfl⟩

/-- Everything a step on the ports can do: INIT, or a step of the ring whose reset is released. -/
theorem portStep_next {a : Agent} (h : portStep a s = .next t) :
    (s.pins.rstN % 2 = 0 ∧ execInit s = .next t) ∨
    (s.pins.rstN % 2 = 1 ∧ runStep a s.releaseReset = .next t) := by
  unfold portStep at h
  rcases decodeR_cases s.pins.rstN with ⟨hw, hd⟩ | ⟨hw, hd⟩ <;> rw [hd] at h
  · exact .inl ⟨hw, h⟩
  · exact .inr ⟨hw, h⟩

/-- Everything a step with reset released can do: nothing, both ports' operations, or one agent's step. -/
theorem runStep_next {a : Agent} (h : runStep a s = .next t) :
    t = s ∨ bothPorts s = .next t ∨ agentStep a s = .next t := by
  unfold runStep at h
  split at h
  · exact .inr (.inl h)
  · exact .inl (by simpa using h.symm)
  · exact .inl (by simpa using h.symm)
  · split at h
    · cases h
    · split at h
      · exact .inr (.inl h)
      · exact .inr (.inr h)

@[simp] theorem State.producerInstr_port (s : State) : s.producerInstr.port = .producer := by
  obtain ⟨-, h⟩ | ⟨-, h⟩ := decodeP_cases s.cfg.W s.pins.pCmd <;> rw [State.producerInstr, h] <;> rfl

@[simp] theorem State.consumerInstr_port (s : State) : s.consumerInstr.port = .consumer := by
  obtain ⟨-, h⟩ | ⟨-, h⟩ := decodeC_cases s.cfg.W s.pins.cCmd <;> rw [State.consumerInstr, h] <;> rfl

/-! ### The parameters -/

theorem execInit_cfg (h : execInit s = .next t) : t.cfg = s.cfg := by
  obtain ⟨-, -, rfl⟩ | ⟨-, -, rfl⟩ | ⟨-, rfl⟩ | ⟨-, rfl⟩ := execInit_next h <;> rfl

theorem exec_cfg {i : Instr} (h : exec i s = .next t) : t.cfg = s.cfg := by
  cases i with
  | init =>
    rw [exec_init] at h
    exact execInit_cfg h
  | put n | pnop =>
    obtain ⟨m, wd, rfl⟩ := exec_producer_next rfl h
    rfl
  | get n | cnop =>
    obtain ⟨rd, rfl⟩ := exec_consumer_next rfl h
    rfl

theorem bothPorts_cfg (h : bothPorts s = .next t) : t.cfg = s.cfg := by
  obtain ⟨sp, sc, hp, -, rfl⟩ := joinPorts_next h
  simpa using exec_cfg hp

theorem agentStep_cfg {a : Agent} (h : agentStep a s = .next t) : t.cfg = s.cfg := by
  obtain ⟨-, rfl⟩ | ⟨-, -, h⟩ | ⟨-, -, rfl⟩ | ⟨-, -, h⟩ | ⟨-, -, rfl⟩ | ⟨-, rfl⟩ | ⟨-, rfl⟩ := agentStep_next h
  · rfl
  · exact exec_cfg h
  · obtain ⟨m, wd, h⟩ := prodStep_frame s
    rw [h]
    rfl
  · exact exec_cfg h
  · obtain ⟨rd, h⟩ := consStep_frame s
    rw [h]
    rfl
  · rfl
  · rfl

theorem runStep_cfg {a : Agent} (h : runStep a s = .next t) : t.cfg = s.cfg := by
  obtain rfl | h | h := runStep_next h
  · rfl
  · exact bothPorts_cfg h
  · exact agentStep_cfg h

@[simp] theorem State.releaseReset_cfg (s : State) : s.releaseReset.cfg = s.cfg := by
  unfold State.releaseReset
  split <;> rfl

theorem step_cfg (h : step s = .next t) : t.cfg = s.cfg := by
  obtain ⟨-, h⟩ | ⟨-, h⟩ := portStep_next h
  · simpa using execInit_cfg h
  · simpa using runStep_cfg h

end Frames

/-- Settles O17: an operation replaces its own port's side or constructs the ring, and a step is made of operations,
transaction steps and synchroniser steps, none of which writes the parameters. -/
theorem parametersNeverChange : Obligations.ParametersNeverChange :=
  ⟨fun _ _ _ => exec_cfg, fun _ _ => step_cfg⟩

/-- Settles O34, from what an operation of each port can replace. -/
theorem eachPortChangesOnlyItsOwnSide : Obligations.EachPortChangesOnlyItsOwnSide := by
  intro i s t h
  refine ⟨fun hi => ?_, fun hi => ?_⟩
  · obtain ⟨rd, rfl⟩ := exec_consumer_next hi h
    exact ⟨rfl, rfl⟩
  · obtain ⟨m, wd, rfl⟩ := exec_producer_next hi h
    rfl

end Sys2Proof.Machine

/-! ## Distances, and the Gray code read back -/

namespace Sys2Proof.Machine

/-- The distance as an integer remainder, which is how the wrap of the cursors enters a proof. -/
theorem cursorDist_cast (W a b : Nat) :
    (cursorDist W a b : Int) = ((a : Int) - b) % ((2 ^ W : Nat) : Int) :=
  Int.toNat_of_nonneg (Int.emod_nonneg _ (by positivity))

/-- The distance after both cursors advance, as long as the consumer does not pass the producer and the distance
stays in range (R79, R80). -/
theorem cursorDist_adv_adv {W w r n m : Nat} (hm : m ≤ cursorDist W w r + n)
    (hlt : cursorDist W w r + n - m < 2 ^ W) :
    cursorDist W (adv W w n) (adv W r m) = cursorDist W w r + n - m := by
  have hres := calc (cursorDist W (adv W w n) (adv W r m) : Int)
    _ = (((w + n : Nat) : Int) - (r + m : Nat)) % (2 ^ W : Nat) := by
      rw [cursorDist_cast, adv, adv, Int.natCast_mod, Int.natCast_mod, ← Int.sub_emod]
    _ = (((w : Int) - r) % (2 ^ W : Nat) + (n - m)) % (2 ^ W : Nat) := by
      rw [Int.emod_add_emod, Nat.cast_add, Nat.cast_add, sub_add_sub_comm]
    _ = ((cursorDist W w r + n - m : Nat) : Int) % (2 ^ W : Nat) := by
      rw [← cursorDist_cast, Nat.cast_sub hm, Nat.cast_add, add_sub_assoc]
  rw [← Int.natCast_mod, Nat.mod_eq_of_lt hlt] at hres
  exact_mod_cast hres

/-- The distance of the residues of two totals is their difference (R79). -/
theorem cursorDist_mod_mod {W E D : Nat} (hle : D ≤ E) (hlt : E - D < 2 ^ W) :
    cursorDist W (E % 2 ^ W) (D % 2 ^ W) = E - D := by
  simpa [adv] using cursorDist_adv_adv (W := W) (w := 0) (r := 0) (n := E) (m := D) (by simpa using hle)
    (by simpa using hlt)

/-- `gray2bin` with `W` terms undoes `bin2gray` up to the bits from `W` on: the sum of shifts telescopes (R84). -/
theorem gray2bin_bin2gray_xor (W b : Nat) : gray2bin W (bin2gray b) = b ^^^ (b >>> W) := by
  induction W with
  | zero => simp [gray2bin]
  | succ W ih =>
    rw [gray2bin, ih, bin2gray, Nat.shiftRight_xor_distrib, ← Nat.shiftRight_add, Nat.add_comm 1 W,
      Nat.xor_assoc, Nat.xor_xor_cancel_left]

/-- Decoding the Gray image of a `W`-bit value gives the value back (R84). -/
theorem gray2bin_bin2gray {W b : Nat} (hb : b < 2 ^ W) : gray2bin W (bin2gray b) = b := by
  rw [gray2bin_bin2gray_xor, Nat.shiftRight_eq_div_pow, Nat.div_eq_of_lt hb, Nat.xor_zero]

theorem gray2bin_grayOf (W n : Nat) : gray2bin W (grayOf W n) = n % 2 ^ W :=
  gray2bin_bin2gray (Nat.mod_lt _ (by positivity))

@[simp] theorem grayOf_zero (W : Nat) : grayOf W 0 = 0 := by simp [grayOf, bin2gray]

@[simp] theorem gray2bin_zero (W : Nat) : gray2bin W 0 = 0 := by simpa using gray2bin_grayOf W 0

/-- The last stage of a chain shows the image of the last total. -/
theorem getLastD_map_grayOf (W : Nat) (l : List Nat) :
    (l.map (grayOf W)).getLastD 0 = grayOf W (l.getLastD 0) := by
  rw [List.getLastD_eq_getLast?, List.getLastD_eq_getLast?, List.getLast?_map]
  cases l.getLast? with
  | none => exact (grayOf_zero W).symm
  | some n => rfl

end Sys2Proof.Machine

/-! ## A ring just constructed -/

namespace Sys2Proof.Machine

/-- INIT on legal parameters constructs the ring (R93, R139). -/
theorem execInit_awaiting {s : State} (hl : s.life = .awaiting) (hc : capOk s.cfg.C s.cfg.W = true) :
    execInit s = .next s.construct := by
  simp [execInit, hl, hc]

@[simp] theorem WriteDomain.reset_writeCursor (n : Nat) : (WriteDomain.reset n).writeCursor = 0 := rfl
@[simp] theorem ReadDomain.reset_readCursor (n : Nat) : (ReadDomain.reset n).readCursor = 0 := rfl

/-- A chain of zeroed stages shows zero, whatever its depth. -/
theorem getLastD_replicate_zero (n : Nat) : (List.replicate n 0).getLastD 0 = 0 := by
  rw [List.getLastD_eq_getLast?, List.getLast?_replicate]
  split <;> rfl

section Construct
variable (s : State)

@[simp] theorem State.construct_wrSeen : s.construct.wrSeen = 0 := by
  rw [State.wrSeen, State.construct_rd, ReadDomain.reset, getLastD_replicate_zero, gray2bin_zero]

@[simp] theorem State.construct_rdSeen : s.construct.rdSeen = 0 := by
  rw [State.rdSeen, State.construct_wd, WriteDomain.reset, getLastD_replicate_zero, gray2bin_zero]

@[simp] theorem State.construct_producerView : s.construct.producerView = 0 := by
  unfold State.producerView
  split <;> simp

@[simp] theorem State.construct_consumerView : s.construct.consumerView = 0 := by
  unfold State.consumerView
  split <;> simp

/-- Both checks of invariant 2 pass on zeroed cursors and views. -/
theorem State.construct_checksOk : s.construct.checksOk = true := by
  simp [State.checksOk, State.invOkW, State.invOkR, invOk]

theorem State.construct_empty : s.construct.empty = true := by simp [State.empty, isEmpty]

theorem State.construct_emptyR : s.construct.emptyR = true := by simp [State.emptyR, isEmpty]

end Construct

section ConstructLegal
variable {s : State} (hc : capOk s.cfg.C s.cfg.W = true)
include hc

/-- A capacity is positive, so a distance of 0 is not full. -/
theorem State.construct_full : s.construct.full = false := by
  simpa [State.full, isFull] using (capOk_pos hc).ne

theorem State.construct_fullW : s.construct.fullW = false := by
  simpa [State.fullW, isFull] using (capOk_pos hc).ne

end ConstructLegal

/-- Settles O12: the ring INIT leaves is the constructed one, whose registers are the reset values and whose
conditions are those of distance 0. -/
theorem initConstructsAnEmptyRing : Obligations.InitConstructsAnEmptyRing := by
  intro s hl hc
  exact ⟨s.construct, execInit_awaiting hl hc, rfl, rfl, rfl, rfl, rfl, rfl, rfl, s.construct_wrSeen,
    s.construct_rdSeen, rfl, rfl, fun _ => rfl, s.construct_empty, State.construct_full hc, s.construct_emptyR,
    State.construct_fullW hc, s.construct_checksOk, hc, rfl, rfl, rfl⟩

/-- Settles O28: both cursors are 0 and no cell is written. -/
theorem syncInvariantHoldsAfterReset : Obligations.SyncInvariantHoldsAfterReset := by
  intro cfg inputs hcfg hb
  exact
    { legal := hcfg
      block := hb
      life := rfl
      writeCursor_fits := fitsIn_iff.mpr (by simp)
      readCursor_fits := fitsIn_iff.mpr (by simp)
      distance := by simp
      pPhase := rfl
      cPhase := rfl
      storage_wf := List.Pairwise.nil
      storage_within := fun _ hc => by simp at hc }

end Sys2Proof.Machine

/-! ## The conditions -/

namespace Sys2Proof.Machine

theorem isFull_iff {C W w r : Nat} : isFull C W w r = true ↔ cursorDist W w r = C := by simp [isFull]

theorem isEmpty_iff {W w r : Nat} : isEmpty W w r = true ↔ cursorDist W w r = 0 := by simp [isEmpty]

section Views
variable {s : State} {h : History}

/-- The consumer's view is the residue of the total its last stage holds (R127). -/
theorem ViewLaw.wrSeen_eq (v : ViewLaw s h) : s.wrSeen = h.kSeen % 2 ^ s.cfg.W := by
  rw [State.wrSeen, v.rqWgray, getLastD_map_grayOf, gray2bin_grayOf, History.kSeen]

/-- The producer's view is the residue of the total its last stage holds (R127). -/
theorem ViewLaw.rdSeen_eq (v : ViewLaw s h) : s.rdSeen = h.dSeen % 2 ^ s.cfg.W := by
  rw [State.rdSeen, v.wqRgray, getLastD_map_grayOf, gray2bin_grayOf, History.dSeen]

/-- The order of the totals (R128, R129). -/
theorem CountLaw.totals_le (c : CountLaw s h) :
    h.dSeen ≤ h.D ∧ h.D ≤ h.kSeen ∧ h.kSeen ≤ h.K ∧ h.K ≤ h.dSeen + s.cfg.C :=
  ⟨c.dSeen_le, Nat.le_of_add_right_le c.read_le, c.kSeen_le, Nat.le_of_add_right_le c.write_le⟩

/-- The producer's distance is the difference of the totals it goes by. -/
theorem AsyncInv.cursorDist_rdSeen (i : AsyncInv s h) :
    cursorDist s.cfg.W s.wd.writeCursor s.rdSeen = h.K - h.dSeen := by
  obtain ⟨h1, h2, h3, h4⟩ := i.counts.totals_le
  have hC := capOk_lt i.legal.1
  rw [i.view.writeCursor, i.view.rdSeen_eq, cursorDist_mod_mod (by omega) (by omega)]

/-- The consumer's distance is the difference of the totals it goes by. -/
theorem AsyncInv.cursorDist_wrSeen (i : AsyncInv s h) :
    cursorDist s.cfg.W s.wrSeen s.rd.readCursor = h.kSeen - h.D := by
  obtain ⟨h1, h2, h3, h4⟩ := i.counts.totals_le
  have hC := capOk_lt i.legal.1
  rw [i.view.readCursor, i.view.wrSeen_eq, cursorDist_mod_mod (by omega) (by omega)]

/-- The true distance is the difference of the true totals. -/
theorem AsyncInv.cursorDist_cursors (i : AsyncInv s h) :
    cursorDist s.cfg.W s.wd.writeCursor s.rd.readCursor = h.K - h.D := by
  obtain ⟨h1, h2, h3, h4⟩ := i.counts.totals_le
  have hC := capOk_lt i.legal.1
  rw [i.view.writeCursor, i.view.readCursor, cursorDist_mod_mod (by omega) (by omega)]

/-- The producer sees at least the true distance, and never more than the capacity: a full ring looks full. -/
theorem AsyncInv.fullW_of_full (i : AsyncInv s h) (hf : s.full = true) : s.fullW = true := by
  have hd := isFull_iff.mp hf
  rw [i.cursorDist_cursors] at hd
  refine isFull_iff.mpr ?_
  rw [i.cursorDist_rdSeen]
  obtain ⟨h1, h2, h3, h4⟩ := i.counts.totals_le
  omega

/-- The consumer sees at most the true distance: an empty ring looks empty. -/
theorem AsyncInv.emptyR_of_empty (i : AsyncInv s h) (he : s.empty = true) : s.emptyR = true := by
  have hd := isEmpty_iff.mp he
  rw [i.cursorDist_cursors] at hd
  refine isEmpty_iff.mpr ?_
  rw [i.cursorDist_wrSeen]
  obtain ⟨h1, h2, h3, h4⟩ := i.counts.totals_le
  omega

end Views

/-- Settles O53: each condition is its distance test, and each side's own distance errs towards its condition. -/
theorem asyncConditionsAreConservative : Obligations.AsyncConditionsAreConservative :=
  ⟨fun _ => ⟨isFull_iff, isEmpty_iff, isFull_iff, isEmpty_iff⟩,
    fun _ _ i => ⟨i.fullW_of_full, i.emptyR_of_empty⟩⟩

end Sys2Proof.Machine

/-! ## The invariant of `sync_fifo`

A step is a producer's part and a consumer's part on one state (R98). Each part is described by what the invariant
needs of it, an idle port being an advance by 0. -/

namespace Sys2Proof.Machine

section Advances
variable {s t : State} {n m : Nat}

/-- The producer's part of a step of `sync_fifo` from `s` to `t`, whose write cursor advances by `n`. -/
structure PutAdvance (s t : State) (n : Nat) : Prop where
  cfg : t.cfg = s.cfg
  life : t.life = s.life
  count_le : n ≤ free s.cfg.C s.cfg.W s.wd.writeCursor s.rd.readCursor
  writeCursor : t.wd.writeCursor = adv s.cfg.W s.wd.writeCursor n
  pPhase : t.wd.pPhase = .idle
  storage_wf : t.storage.wf
  storage_within : t.storage.within s.cfg.C

/-- The consumer's part of a step of `sync_fifo` from `s` to `t`, whose read cursor advances by `m`. -/
structure GetAdvance (s t : State) (m : Nat) : Prop where
  count_le : m ≤ queued s.cfg.W s.wd.writeCursor s.rd.readCursor
  readCursor : t.rd.readCursor = adv s.cfg.W s.rd.readCursor m
  cPhase : t.rd.cPhase = .idle

theorem adv_zero {W c : Nat} (h : fitsIn W c = true) : adv W c 0 = c := Nat.mod_eq_of_lt (fitsIn_iff.mp h)

/-- The split copy of a PUT stays inside the storage (R81). -/
theorem putCore_within {C W w rv req : Nat} {m : Memory} {src : List Byte} (hC : 0 < C) (hm : m.within C) :
    (putCore C W m w rv src req).storage.within C := by
  have hn := clampPut_le C W req w rv
  have hroom := seg1_le_room C w (clampPut C W req w rv)
  have hoff := index_lt hC w
  refine Memory.copyIn_within hm (by omega) ?_ src
  unfold seg2
  omega

theorem SyncInv.putAdvance_refl (i : SyncInv s) : PutAdvance s s 0 :=
  { cfg := rfl, life := rfl, count_le := Nat.zero_le _, writeCursor := (adv_zero i.writeCursor_fits).symm,
    pPhase := i.pPhase, storage_wf := i.storage_wf, storage_within := i.storage_within }

theorem SyncInv.getAdvance_refl (i : SyncInv s) : GetAdvance s s 0 :=
  { count_le := Nat.zero_le _, readCursor := (adv_zero i.readCursor_fits).symm, cPhase := i.cPhase }

theorem SyncInv.putAdvance_putAtomic (i : SyncInv s) (req : Nat) :
    PutAdvance s (s.putAtomic req) (clampPut s.cfg.C s.cfg.W req s.wd.writeCursor s.rd.readCursor) :=
  { cfg := rfl, life := rfl, count_le := Nat.min_le_right _ _, writeCursor := rfl, pPhase := i.pPhase,
    storage_wf := Memory.copyIn_wf i.storage_wf _ _ _ _,
    storage_within := putCore_within (capOk_pos i.legal.1) i.storage_within }

theorem SyncInv.getAdvance_getAtomic (i : SyncInv s) (req : Nat) :
    GetAdvance s (s.getAtomic req) (clampGet s.cfg.W req s.wd.writeCursor s.rd.readCursor) :=
  { count_le := clampGet_le _ _ _ _, readCursor := rfl, cPhase := i.cPhase }

/-- Whatever word is on the producer port, its part is an advance. -/
theorem SyncInv.putAdvance_of_exec (i : SyncInv s) (h : exec s.producerInstr s = .next t) :
    ∃ n, PutAdvance s t n := by
  obtain ⟨-, hd⟩ | ⟨-, hd⟩ := decodeP_cases s.cfg.W s.pins.pCmd <;> rw [State.producerInstr, hd] at h
  · obtain rfl | ⟨-, -, -, -, ⟨-, rfl⟩ | ⟨hb, -⟩⟩ := execPut_next h
    · exact ⟨0, i.putAdvance_refl⟩
    · exact ⟨_, i.putAdvance_putAtomic _⟩
    · simp [i.block] at hb
  · obtain rfl : s = t := by simpa using h
    exact ⟨0, i.putAdvance_refl⟩

/-- Whatever word is on the consumer port, its part is an advance. -/
theorem SyncInv.getAdvance_of_exec (i : SyncInv s) (h : exec s.consumerInstr s = .next t) :
    ∃ m, GetAdvance s t m := by
  obtain ⟨-, hd⟩ | ⟨-, hd⟩ := decodeC_cases s.cfg.W s.pins.cCmd <;> rw [State.consumerInstr, hd] at h
  · obtain rfl | ⟨-, -, -, ⟨-, rfl⟩ | ⟨hb, -⟩⟩ := execGet_next h
    · exact ⟨0, i.getAdvance_refl⟩
    · exact ⟨_, i.getAdvance_getAtomic _⟩
    · simp [i.block] at hb
  · obtain rfl : s = t := by simpa using h
    exact ⟨0, i.getAdvance_refl⟩

/-- The two parts written together keep the invariant: the distance grows by `n`, at most the free space, and
shrinks by `m`, at most what was queued (R80, R98). -/
theorem SyncInv.join {sp sc : State} (i : SyncInv s) (p : PutAdvance s sp n) (g : GetAdvance s sc m) :
    SyncInv (sp.setRd sc.rd) := by
  have hC := capOk_lt i.legal.1
  have hdist := i.distance
  have hn := p.count_le
  have hm := g.count_le
  unfold free at hn
  unfold queued at hm
  exact
    { legal := by simpa [p.cfg] using i.legal
      block := by simpa [p.cfg] using i.block
      life := by simpa [p.life] using i.life
      writeCursor_fits := by simpa [p.cfg, p.writeCursor, fitsIn_iff] using adv_lt _ _ _
      readCursor_fits := by simpa [p.cfg, g.readCursor, fitsIn_iff] using adv_lt _ _ _
      distance := by
        simp only [State.setRd_cfg, State.setRd_wd, State.setRd_rd, p.cfg, p.writeCursor, g.readCursor]
        rw [cursorDist_adv_adv (by omega) (by omega)]
        omega
      pPhase := p.pPhase
      cPhase := g.cPhase
      storage_wf := p.storage_wf
      storage_within := by simpa [p.cfg] using p.storage_within }

/-- Taking a frame and letting the outputs fall does not matter to the invariant. -/
theorem SyncInv.latchFrame (i : SyncInv s) : SyncInv s.latchFrame :=
  ⟨i.legal, i.block, i.life, i.writeCursor_fits, i.readCursor_fits, i.distance, i.pPhase, i.cPhase, i.storage_wf,
    i.storage_within⟩

/-- Both ports' operations on one state keep the invariant. -/
theorem SyncInv.of_bothPorts (i : SyncInv s) (h : bothPorts s = .next t) : SyncInv t := by
  obtain ⟨sp, sc, hp, hc, rfl⟩ := joinPorts_next h
  obtain ⟨n, p⟩ := i.putAdvance_of_exec hp
  obtain ⟨m, g⟩ := i.getAdvance_of_exec hc
  exact i.join p g

end Advances

/-- Settles O29: a step of a running `sync_fifo` is both ports' operations on the latched state. -/
theorem syncStepsKeepTheInvariant : Obligations.SyncStepsKeepTheInvariant := by
  intro s t i h
  obtain ⟨-, -, ⟨-, h⟩ | ⟨hb, -⟩⟩ := step_running_next i.life h
  · exact i.latchFrame.of_bothPorts h
  · simp [i.block] at hb

end Sys2Proof.Machine

/-! ## The cells of a window of positions

At most `C` consecutive positions name distinct cells. The consumer's region and after it the producer's are together
such a window, which begins at the read cursor (R39). -/

namespace Sys2Proof.Machine

/-- The mask of a legal capacity is the remainder by it (R68). -/
theorem index_eq_mod {C W : Nat} (hc : capOk C W = true) (p : Nat) : index C p = p % C := by
  rw [index, mask, capOk_eq_two_pow hc, Nat.and_two_pow_sub_one_eq_mod]

/-- A legal capacity divides the range of a cursor. -/
theorem capOk_dvd {C W : Nat} (hc : capOk C W = true) : C ∣ 2 ^ W := by
  have hlt := capOk_lt hc
  rw [capOk_eq_two_pow hc] at hlt ⊢
  exact pow_dvd_pow 2 ((Nat.pow_lt_pow_iff_right Nat.one_lt_two).mp hlt).le

/-- The wrap of a cursor does not change the cell its position names. -/
theorem index_mod_two_pow {C W : Nat} (hc : capOk C W = true) (p : Nat) : index C (p % 2 ^ W) = p % C := by
  rw [index_eq_mod hc, Nat.mod_mod_of_dvd p (capOk_dvd hc)]

/-- Two different positions less than `C` apart name different cells. -/
theorem index_mod_ne_of_lt {C W a b : Nat} (hc : capOk C W = true) (hab : a < b) (hba : b < a + C) :
    index C (a % 2 ^ W) ≠ index C (b % 2 ^ W) := by
  rw [index_mod_two_pow hc, index_mod_two_pow hc]
  intro heq
  have hdvd : C ∣ b - a := (Nat.modEq_iff_dvd' hab.le).mp heq
  exact Nat.not_dvd_of_pos_of_lt (by omega) (by omega) hdvd

/-- The write cursor is the read cursor advanced by the distance (R69, R87). -/
theorem adv_cursorDist {W w r : Nat} (hw : w < 2 ^ W) (hr : r < 2 ^ W) : adv W r (cursorDist W w r) = w := by
  rw [adv, cursorDist_eq hw hr]
  split
  · rw [Nat.add_sub_cancel' ‹r ≤ w›, Nat.mod_eq_of_lt hw]
  · rw [Nat.add_sub_cancel' (by omega), Nat.add_mod_right, Nat.mod_eq_of_lt hw]

/-- Settles O33: the producer's position `w + i` is the one `queued + i` after the read cursor, so it comes after the
consumer's `r + j` and less than `C` after the read cursor. -/
theorem producerAndConsumerRegionsAreDisjoint : Obligations.ProducerAndConsumerRegionsAreDisjoint := by
  intro C W w r i j hc hw hr _ hi hj
  unfold free at hi
  unfold queued at hj
  have hwi : (w + i) % 2 ^ W = (r + cursorDist W w r + i) % 2 ^ W := by
    conv_lhs => rw [← adv_cursorDist hw hr, adv, Nat.mod_add_mod]
  rw [hwi]
  exact (index_mod_ne_of_lt hc (by omega) (by omega)).symm

end Sys2Proof.Machine

/-! ## The command words

What each port reads from a word that fits it, and the word an operation is written as (R52 to R56, R59). -/

namespace Sys2Proof.Machine

/-- The length field of a word that fits its port is everything above the opcode bit (R52, R53, R55). -/
theorem bitSlice_length {L w : Nat} (hw : w < 2 ^ (L + 1)) : bitSlice L 1 w = w / 2 := by
  have hlt : w / 2 < 2 ^ L := by rw [Nat.pow_succ] at hw; omega
  rw [bitSlice, Nat.shiftRight_one, Nat.add_sub_cancel, Nat.mod_eq_of_lt hlt]

section Words
variable {L w : Nat}

/-- With the opcode bit set the producer's word is a PUT (R52). -/
theorem decode_producer_of_odd (hw : w < 2 ^ (L + 1)) (h : w % 2 = 1) :
    decode L .producer w = .ok (.put (w / 2)) := by
  obtain ⟨-, hd⟩ | ⟨h0, -⟩ := decodeP_cases L w
  · rw [decode, hd, bitSlice_length hw]
  · omega

/-- With the opcode bit clear the producer's word is a PNOP, whatever its length field (R52, R96). -/
theorem decode_producer_of_even (L : Nat) (h : w % 2 = 0) : decode L .producer w = .ok .pnop := by
  obtain ⟨h1, -⟩ | ⟨-, hd⟩ := decodeP_cases L w
  · omega
  · rw [decode, hd]

/-- With the opcode bit set the consumer's word is a GET (R53). -/
theorem decode_consumer_of_odd (hw : w < 2 ^ (L + 1)) (h : w % 2 = 1) :
    decode L .consumer w = .ok (.get (w / 2)) := by
  obtain ⟨-, hd⟩ | ⟨h0, -⟩ := decodeC_cases L w
  · rw [decode, hd, bitSlice_length hw]
  · omega

/-- With the opcode bit clear the consumer's word is a CNOP, whatever its length field (R53, R97). -/
theorem decode_consumer_of_even (L : Nat) (h : w % 2 = 0) : decode L .consumer w = .ok .cnop := by
  obtain ⟨h1, -⟩ | ⟨-, hd⟩ := decodeC_cases L w
  · omega
  · rw [decode, hd]

end Words

/-- A PUT is written as its length above the opcode bit, so an odd word is the PUT of its half (R52, R56). -/
theorem encode_put_half {w : Nat} (h : w % 2 = 1) : encode (.put (w / 2)) = w := by
  rw [encode]; omega

/-- As `encode_put_half`, on the consumer port (R53, R56). -/
theorem encode_get_half {w : Nat} (h : w % 2 = 1) : encode (.get (w / 2)) = w := by
  rw [encode]; omega

/-- The word of a well-formed operation has no more bits than its port. -/
theorem encode_lt {L : Nat} {i : Instr} (h : i.wf L = true) : encode i < 2 ^ portWidth L i.port := by
  cases i with
  | init => exact Laws.EncodeFits.init L h
  | put n => exact Laws.EncodeFits.put n L h
  | pnop => exact Laws.EncodeFits.pnop L h
  | get n => exact Laws.EncodeFits.get n L h
  | cnop => exact Laws.EncodeFits.cnop L h

/-- Each port reads back the operation a word was written for. PUT and GET are odd words whose half is the length;
that they fit the port is what keeps the length whole. -/
theorem decode_encode {L : Nat} {i : Instr} (h : i.wf L = true) : decode L i.port (encode i) = .ok i := by
  have hfits := encode_lt h
  cases i with
  | init => rfl
  | put n =>
    have hhalf : (2 * n + 1) / 2 = n := by omega
    have hd := decode_producer_of_odd hfits (Nat.mul_add_mod 2 n 1)
    rwa [encode, hhalf] at hd
  | pnop => exact decode_producer_of_even L rfl
  | get n =>
    have hhalf : (2 * n + 1) / 2 = n := by omega
    have hd := decode_consumer_of_odd hfits (Nat.mul_add_mod 2 n 1)
    rwa [encode, hhalf] at hd
  | cnop => exact decode_consumer_of_even L rfl

/-- Settles O9, by cases on the operation. -/
theorem decodeOfEncodeIsTheInstruction : Obligations.DecodeOfEncodeIsTheInstruction :=
  fun _ _ h => ⟨decode_encode h, encode_lt h⟩

/-- Settles O10: the parity of a word is its opcode bit, and its half is its length field. -/
theorem everyWordHasItsMeaning : Obligations.EveryWordHasItsMeaning := by
  intro L w hw
  refine ⟨fun hodd => ?_, fun heven => ?_, rfl, rfl⟩
  · have hlen : w / 2 < 2 ^ L := by rw [Nat.pow_succ] at hw; omega
    exact ⟨decode_producer_of_odd hw hodd, decode_consumer_of_odd hw hodd, hlen,
      encode_put_half hodd, encode_get_half hodd⟩
  · exact ⟨decode_producer_of_even L heven, decode_consumer_of_even L heven⟩

/-- Settles O11: each worked word is the encoding of its operation. -/
theorem specsWorkedEncodingsDecode : Obligations.SpecsWorkedEncodingsDecode :=
  ⟨decode_encode (L := 4) (i := .put 5) rfl, decode_encode (L := 4) (i := .get 6) rfl,
    decode_encode (L := 4) (i := .pnop) rfl, decode_encode (L := 4) (i := .cnop) rfl,
    decode_encode (L := 32) (i := .put 13) rfl, decode_encode (L := 32) (i := .get 0xFFFFFFFF) rfl,
    decode_encode (L := 4) (i := .init) rfl⟩

end Sys2Proof.Machine

/-! ## A port that is not ready

A PUT or GET word on it is not accepted (R60, R63). -/

namespace Sys2Proof.Machine

section NotReady
variable {s : State}

/-- No ring runs because its reset is held or its construction failed: PUT has no effect (R60, R142). -/
theorem execPut_of_not_running (h : s.life = .held ∨ ∃ c, s.life = .failed c) (n : Nat) : execPut n s = .next s := by
  obtain hl | ⟨c, hl⟩ := h <;> simp [execPut, hl]

/-- As `execPut_of_not_running`, for GET. -/
theorem execGet_of_not_running (h : s.life = .held ∨ ∃ c, s.life = .failed c) (n : Nat) : execGet n s = .next s := by
  obtain hl | ⟨c, hl⟩ := h <;> simp [execGet, hl]

/-- A PUT word while a PUT is in flight has no effect (R60). -/
theorem execPut_of_busy (hl : s.life = .running) (hp : s.wd.pPhase ≠ .idle) (n : Nat) : execPut n s = .next s := by
  simp [execPut, hl, hp]

/-- A GET word while a GET is in flight has no effect (R60). -/
theorem execGet_of_busy (hl : s.life = .running) (hp : s.rd.cPhase ≠ .idle) (n : Nat) : execGet n s = .next s := by
  simp [execGet, hl, hp]

end NotReady

/-- Settles O39, by what keeps the port from being ready. -/
theorem wordOnABusyPortHasNoEffect : Obligations.WordOnABusyPortHasNoEffect :=
  fun _ n => ⟨fun h => ⟨execPut_of_not_running h n, execGet_of_not_running h n⟩,
    fun hl hp => execPut_of_busy hl hp n, fun hl hp => execGet_of_busy hl hp n⟩

end Sys2Proof.Machine

/-! ## The capacity check and the widths

A legal capacity is `2 ^ A` with `A + 1 ≤ W`, which bounds every result of the indexer (R65, R66, R88). -/

namespace Sys2Proof.Machine

/-- The computed check is the mathematical one (R65). -/
theorem isPow2_iff {C : Nat} : isPow2 C = true ↔ 0 < C ∧ ∃ k : Nat, C = 2 ^ k := by
  rw [isPow2, Bool.and_eq_true, decide_eq_true_iff, decide_eq_true_iff]
  refine and_congr_right fun _ => ⟨fun h => ⟨_, h.symm⟩, ?_⟩
  rintro ⟨k, rfl⟩
  rw [Nat.log2_two_pow]

/-- The usual bit formula: clearing the lowest set bit leaves nothing (R65). -/
theorem isPow2_iff_and_sub_one {C : Nat} : isPow2 C = true ↔ C ≠ 0 ∧ C &&& (C - 1) = 0 := by
  rw [isPow2_iff, Nat.pos_iff_ne_zero]
  exact and_congr_right fun hC => (Nat.and_sub_one_eq_zero_iff_isPowerOfTwo hC).symm

theorem isPow2_eq_two_pow {C : Nat} (h : isPow2 C = true) : C = 2 ^ log2c C := by
  obtain ⟨-, k, rfl⟩ := isPow2_iff.mp h
  rw [log2c, Nat.log2_two_pow]

/-- Settles O1, each clause by its law. -/
theorem capacityCheckIsPowerOfTwoBelowRange : Obligations.CapacityCheckIsPowerOfTwoBelowRange :=
  ⟨fun _ => isPow2_iff, fun _ => isPow2_iff_and_sub_one,
    fun _ _ => capOk_iff.trans (and_congr_left' isPow2_iff), fun _ => isPow2_eq_two_pow⟩

theorem invOk_iff {C W w r : Nat} : invOk C W w r = true ↔ cursorDist W w r ≤ C := by simp [invOk]

/-- The bits of a count up to `C` fit a length word (R4, R88). -/
theorem countWidth_le {C W : Nat} (hc : capOk C W = true) : countWidth C ≤ W := by
  have hlt := capOk_lt hc
  rw [capOk_eq_two_pow hc] at hlt
  exact (Nat.pow_lt_pow_iff_right Nat.one_lt_two).mp hlt

/-- Counts up to `C` itself need one bit more than offsets (R88). -/
theorem lt_two_pow_countWidth {C W n : Nat} (hc : capOk C W = true) (hn : n ≤ C) : n < 2 ^ countWidth C :=
  calc n
    _ ≤ C := hn
    _ = 2 ^ log2c C := capOk_eq_two_pow hc
    _ < 2 ^ countWidth C := Nat.pow_lt_pow_succ Nat.one_lt_two

/-- Settles O56: offsets are below `C = 2 ^ A`, cursors and distances are residues, counts are clamped to a distance
or to the free space, and segments are parts of a transfer. -/
theorem indexerResultsFitTheirWidths : Obligations.IndexerResultsFitTheirWidths := by
  intro C W hc
  have hpow : C = 2 ^ offsetWidth C := capOk_eq_two_pow hc
  refine ⟨fun p _ => ?_, fun a b => ⟨cursorDist_lt W a b, adv_lt W a b⟩, fun w r req hinv => ?_, fun pos n hn => ?_,
    fun n => lt_two_pow_countWidth hc, hpow, rfl, countWidth_le hc⟩
  · exact (index_lt (capOk_pos hc) p).trans_eq hpow
  · have hdist := invOk_iff.mp hinv
    exact ⟨hdist, Nat.sub_le _ _, clampPut_le C W req w r, (clampGet_le W req w r).trans hdist⟩
  · exact ⟨(seg1_le C pos n).trans hn, (Nat.sub_le _ _).trans hn⟩

end Sys2Proof.Machine

/-! ## Offsets, distances and split copies

The statements of R78 to R81, from the laws of `index` and `cursorDist` above. -/

namespace Sys2Proof.Machine

/-- The wrap of a cursor commutes with the masking: the capacity divides the range of a cursor (R78). -/
theorem index_add_mod {C W : Nat} (hc : capOk C W = true) (p k : Nat) :
    index C ((p + k) % 2 ^ W) = (index C p + k) % C := by
  rw [index_mod_two_pow hc, index_eq_mod hc, Nat.mod_add_mod]

/-- Settles O2, each clause by its law. -/
theorem indexIsRemainderAndCommutesWithWrap : Obligations.IndexIsRemainderAndCommutesWithWrap :=
  fun _ _ p hc _ => ⟨index_eq_mod hc p, index_lt (capOk_pos hc) p, index_add_mod hc p⟩

/-- Settles O3: a distance up to `C` is below the range of a cursor. -/
theorem distanceSurvivesCursorOverflow : Obligations.DistanceSurvivesCursorOverflow :=
  fun _ _ _ _ hc hle hC => cursorDist_mod_mod hle (hC.trans_lt (capOk_lt hc))

/-- Settles O4: each side alone is both at once with the other advance 0. -/
theorem advancesKeepInvariantTwo : Obligations.AdvancesKeepInvariantTwo := by
  intro C W w r n m hc hw hr hinv hn hm
  have hlt := capOk_lt hc
  have hdist := invOk_iff.mp hinv
  unfold free at hn
  unfold queued at hm
  have hput := cursorDist_adv_adv (W := W) (w := w) (r := r) (n := n) (m := 0) (by omega) (by omega)
  have hget := cursorDist_adv_adv (W := W) (w := w) (r := r) (n := 0) (m := m) (by omega) (by omega)
  rw [adv_zero (fitsIn_iff.mpr hr)] at hput
  rw [adv_zero (fitsIn_iff.mpr hw)] at hget
  exact ⟨⟨hput, by omega⟩, hget, cursorDist_adv_adv (by omega) (by omega), by omega⟩

section Segments
variable {C pos n : Nat}

theorem seg1_add_seg2 (C pos n : Nat) : seg1 C pos n + seg2 C pos n = n := Nat.add_sub_cancel' (seg1_le C pos n)

/-- A second segment is there only when the first one reaches the physical end (R81). -/
theorem index_add_seg1_of_seg2_pos (hC : 0 < C) (h : 0 < seg2 C pos n) : index C pos + seg1 C pos n = C := by
  have hoff := index_lt hC pos
  unfold seg2 seg1 at *
  omega

/-- The second segment ends before the first one begins (R81). -/
theorem seg2_le_index (hC : 0 < C) (hn : n ≤ C) : seg2 C pos n ≤ index C pos := by
  have hoff := index_lt hC pos
  unfold seg2 seg1
  omega

/-- The first segment runs up from the offset, the second one up from 0 (R81). -/
theorem index_add_eq_segments {W i : Nat} (hc : capOk C W = true) (hn : n ≤ C) (hi : i < n) :
    index C ((pos + i) % 2 ^ W) = if i < seg1 C pos n then index C pos + i else i - seg1 C pos n := by
  have hoff := index_lt (capOk_pos hc) pos
  rw [index_add_mod hc, seg1]
  split
  · exact Nat.mod_eq_of_lt (by omega)
  · rw [Nat.mod_eq_sub_mod (by omega), Nat.mod_eq_of_lt (by omega)]
    omega

/-- The positions of a transfer name different cells (R81). -/
theorem index_add_injective {W i j : Nat} (hc : capOk C W = true) (hn : n ≤ C) (hi : i < n) (hj : j < n)
    (h : index C ((pos + i) % 2 ^ W) = index C ((pos + j) % 2 ^ W)) : i = j := by
  obtain hlt | heq | hgt := Nat.lt_trichotomy i j
  · exact absurd h (index_mod_ne_of_lt hc (by omega) (by omega))
  · exact heq
  · exact absurd h.symm (index_mod_ne_of_lt hc (by omega) (by omega))

end Segments

/-- Settles O5, each clause by its law. -/
theorem splitNeverOverruns : Obligations.SplitNeverOverruns := by
  intro C W pos n hc _ hn
  have hC := capOk_pos hc
  have hoff := index_lt hC pos
  have hroom := seg1_le_room C pos n
  exact ⟨seg1_add_seg2 C pos n, by omega, index_add_seg1_of_seg2_pos hC, seg2_le_index hC hn,
    fun _ _ => index_add_injective hc hn, fun _ => index_add_eq_segments hc hn⟩

end Sys2Proof.Machine

/-! ## The Gray code

`bin2gray` distributes over exclusive or, and both round trips are sums of shifts that telescope (R82 to R86). -/

namespace Sys2Proof.Machine

@[simp] theorem bin2gray_zero : bin2gray 0 = 0 := rfl

theorem bin2gray_xor (a b : Nat) : bin2gray (a ^^^ b) = bin2gray a ^^^ bin2gray b := by
  rw [bin2gray, bin2gray, bin2gray, Nat.shiftRight_xor_distrib]
  ac_rfl

theorem shiftRight_lt_two_pow {W v : Nat} (hv : v < 2 ^ W) (k : Nat) : v >>> k < 2 ^ W :=
  (Nat.shiftRight_le v k).trans_lt hv

theorem bin2gray_lt {W v : Nat} (hv : v < 2 ^ W) : bin2gray v < 2 ^ W :=
  Nat.xor_lt_two_pow hv (shiftRight_lt_two_pow hv 1)

/-- However many shifts are summed, no bit from `W` on is set. -/
theorem gray2bin_lt {W g : Nat} (hg : g < 2 ^ W) (n : Nat) : gray2bin n g < 2 ^ W := by
  induction n with
  | zero => exact Nat.two_pow_pos W
  | succ n ih => exact Nat.xor_lt_two_pow ih (shiftRight_lt_two_pow hg n)

/-- `bin2gray` undoes `gray2bin` with `W` terms up to the bits from `W` on (R84). -/
theorem bin2gray_gray2bin_xor (W g : Nat) : bin2gray (gray2bin W g) = g ^^^ (g >>> W) := by
  induction W with
  | zero => simp [gray2bin]
  | succ W ih =>
    rw [gray2bin, bin2gray_xor, ih, bin2gray, ← Nat.shiftRight_add, Nat.xor_assoc, Nat.xor_xor_cancel_left]

/-- The Gray image of a decoded `W`-bit value is that value (R84). -/
theorem bin2gray_gray2bin {W g : Nat} (hg : g < 2 ^ W) : bin2gray (gray2bin W g) = g := by
  rw [bin2gray_gray2bin_xor, Nat.shiftRight_eq_div_pow, Nat.div_eq_of_lt hg, Nat.xor_zero]

/-- Settles O6: the two round trips, and that neither function leaves the `W`-bit values. -/
theorem grayCodeRoundTrip : Obligations.GrayCodeRoundTrip :=
  fun W _ hv => ⟨bin2gray_lt hv, gray2bin_lt hv W, gray2bin_bin2gray hv, bin2gray_gray2bin hv⟩

/-- The Gray image of `t + 1` ones is the highest of them alone. -/
theorem bin2gray_ones (t : Nat) : bin2gray (2 ^ (t + 1) - 1) = 2 ^ t := by
  refine Nat.eq_of_testBit_eq fun i => ?_
  rw [bin2gray, Nat.testBit_xor, Nat.testBit_shiftRight, Nat.testBit_two_pow_sub_one, Nat.testBit_two_pow_sub_one,
    Nat.testBit_two_pow, Bool.eq_iff_iff]
  simp only [bne_iff_ne, ne_eq, decide_eq_decide, decide_eq_true_eq]
  omega

/-- A unit step flips the `t` trailing ones of a number and the zero after them. -/
theorem exists_trailing_ones (b : Nat) :
    ∃ t : Nat, (∀ i : Nat, i < t → b.testBit i = true) ∧ b.testBit t = false ∧
      b ^^^ (b + 1) = 2 ^ (t + 1) - 1 := by
  induction b using Nat.strong_induction_on with
  | h b ih =>
    have hdiv : (b ^^^ (b + 1)) / 2 = b / 2 ^^^ (b + 1) / 2 := Nat.xor_div_two
    have hmod : (b ^^^ (b + 1)) % 2 = (b + (b + 1)) % 2 := Nat.xor_mod_two_eq
    obtain heven | hodd := Nat.mod_two_eq_zero_or_one b
    · refine ⟨0, fun i hi => absurd hi (Nat.not_lt_zero i), by simp [heven], ?_⟩
      rw [show (b + 1) / 2 = b / 2 by omega, Nat.xor_self] at hdiv
      omega
    · obtain ⟨t, hones, hzero, hxor⟩ := ih (b / 2) (by omega)
      refine ⟨t + 1, fun i hi => ?_, by rwa [Nat.testBit_succ], ?_⟩
      · cases i with
        | zero => simp [hodd]
        | succ i => rw [Nat.testBit_succ]; exact hones i (by omega)
      · rw [show (b + 1) / 2 = b / 2 + 1 by omega, hxor] at hdiv
        have hpos := Nat.two_pow_pos (t + 1)
        rw [Nat.pow_succ 2 (t + 1)]
        omega

/-- Without a wrap, a unit step of the number flips the Gray bit of its trailing ones (R85). -/
theorem bin2gray_xor_succ {b t : Nat} (hxor : b ^^^ (b + 1) = 2 ^ (t + 1) - 1) :
    bin2gray b ^^^ bin2gray (b + 1) = 2 ^ t := by
  rw [← bin2gray_xor, hxor, bin2gray_ones]

/-- At the wrap, from all ones to zero, the top bit is the one that changes (R85). -/
theorem bin2gray_xor_wrap {W : Nat} (hW : 0 < W) : bin2gray (2 ^ W - 1) ^^^ bin2gray 0 = 2 ^ (W - 1) := by
  have hones := bin2gray_ones (W - 1)
  rw [Nat.sub_add_cancel hW] at hones
  rw [hones, bin2gray_zero, Nat.xor_zero]

/-- Settles O7: by whether the step wraps. Without a wrap the flipped bits `0 .. t` are all below `W`; at the wrap
the number is all ones, and its first zero is not below `W`. -/
theorem grayUnitStepChangesOneBit : Obligations.GrayUnitStepChangesOneBit := by
  intro W b hW hb
  obtain ⟨t, hones, hzero, hxor⟩ := exists_trailing_ones b
  refine ⟨t, hones, hzero, ?_⟩
  obtain hlt | hwrap := Nat.lt_or_eq_of_le (Nat.add_one_le_iff.mpr hb)
  · have hpow : 2 ^ (t + 1) - 1 < 2 ^ W := hxor ▸ Nat.xor_lt_two_pow hb hlt
    have ht : t + 1 ≤ W := (Nat.pow_le_pow_iff_right Nat.one_lt_two).mp (Nat.le_of_pred_lt hpow)
    rw [Nat.mod_eq_of_lt hlt, bin2gray_xor_succ hxor, Nat.min_eq_left (Nat.le_sub_one_of_lt ht)]
  · obtain rfl : b = 2 ^ W - 1 := Nat.eq_sub_of_add_eq hwrap
    have ht : W ≤ t := by simpa [Nat.testBit_two_pow_sub_one] using hzero
    rw [hwrap, Nat.mod_self, bin2gray_xor_wrap hW, Nat.min_eq_right ((Nat.sub_le W 1).trans ht)]

/-- Settles O8: the mixture 3 is the Gray image of 2, and the mixture 0 that of 0. -/
theorem grayJumpMixesOldAndNewBits : Obligations.GrayJumpMixesOldAndNewBits :=
  ⟨rfl, rfl, gray2bin_zero 3, gray2bin_bin2gray (W := 3) (b := 2) (by decide)⟩

end Sys2Proof.Machine

/-! ## What a step runs

A step is INIT, or the operations of the ports on the latched state; in `sync_fifo` PUT and GET are then the atomic
transitions (R90, R98, R112, R146). -/

namespace Sys2Proof.Machine

section Steps
variable {s t : State} {n : Nat}

/-- With reset asserted a step is INIT, whatever the words on the ports (R146). -/
theorem step_of_reset (h : s.nextFrame.pins.rstN % 2 = 0) : step s = exec .init s.latchFrame := by
  obtain ⟨-, hd⟩ | ⟨h1, -⟩ := decodeR_cases s.nextFrame.pins.rstN
  · rw [step, portStep, State.latchFrame_pins, hd]
  · omega

/-- With reset released a step is one of the ring whose reset is released (R159). -/
theorem step_of_released (h : s.nextFrame.pins.rstN % 2 = 1) :
    step s = runStep s.nextFrame.agent s.latchFrame.releaseReset := by
  obtain ⟨h0, -⟩ | ⟨-, hd⟩ := decodeR_cases s.nextFrame.pins.rstN
  · omega
  · rw [step, portStep, State.latchFrame_pins, hd]

/-- The first step with reset released sets the constructed ring running (R159, R160). -/
theorem step_of_held (hl : s.life = .held) (hr : s.nextFrame.pins.rstN % 2 = 1) :
    step s = step { s with life := .running } := by
  rw [step_of_released hr, step_of_released (s := { s with life := .running }) hr,
    State.releaseReset_of_held (by simpa using hl), State.releaseReset_of_not_held (by simp)]
  rfl

section Running
variable (hl : s.life = .running) (hr : s.nextFrame.pins.rstN % 2 = 1) (hc : s.checksOk = true)
include hl hr hc

/-- A step of a running `sync_fifo` is both ports' operations on the latched state (R90, R98). -/
theorem step_eq_bothPorts (hb : s.cfg.block = .sync) : step s = bothPorts s.latchFrame := by
  rw [step_of_released hr, State.releaseReset_of_not_held (by simp [hl])]
  simp [runStep, hl, hc, hb]

/-- A step of a running `async_fifo` is one of the agent whose turn it is (R110). -/
theorem step_eq_agentStep (hb : s.cfg.block = .async) : step s = agentStep s.nextFrame.agent s.latchFrame := by
  rw [step_of_released hr, State.releaseReset_of_not_held (by simp [hl])]
  simp [runStep, hl, hc, hb]

end Running

/-- With the consumer idle, the two ports do what the producer does. -/
theorem joinPorts_cnop {i : Instr} (hi : i.port = .producer) : joinPorts (exec i s) (exec .cnop s) = exec i s := by
  cases h : exec i s with
  | next t =>
    obtain ⟨m, wd, rfl⟩ := exec_producer_next hi h
    rfl
  | fault f => rfl
  | refused r => rfl

/-- With the producer idle, the two ports do what the consumer does. -/
theorem joinPorts_pnop {i : Instr} (hi : i.port = .consumer) : joinPorts (exec .pnop s) (exec i s) = exec i s := by
  cases h : exec i s with
  | next t =>
    obtain ⟨rd, rfl⟩ := exec_consumer_next hi h
    rfl
  | fault f => rfl
  | refused r => rfl

theorem decodeP_of_even (L : Nat) {w : Nat} (h : w % 2 = 0) : decodeP L w = .pnop := by
  obtain ⟨h1, -⟩ | ⟨-, hd⟩ := decodeP_cases L w
  · omega
  · exact hd

theorem decodeC_of_even (L : Nat) {w : Nat} (h : w % 2 = 0) : decodeC L w = .cnop := by
  obtain ⟨h1, -⟩ | ⟨-, hd⟩ := decodeC_cases L w
  · omega
  · exact hd

section SyncStep
variable (hl : s.life = .running) (hr : s.nextFrame.pins.rstN % 2 = 1) (hc : s.checksOk = true)
  (hb : s.cfg.block = .sync)
include hl hr hc hb

/-- With an idle word on the consumer port, a step of `sync_fifo` is the producer's operation. -/
theorem step_eq_producer (hw : s.nextFrame.pins.cCmd % 2 = 0) :
    step s = exec (decodeP s.cfg.W s.nextFrame.pins.pCmd) s.latchFrame := by
  have hd : s.latchFrame.consumerInstr = .cnop := decodeC_of_even _ hw
  rw [step_eq_bothPorts hl hr hc hb, bothPorts, hd, joinPorts_cnop (State.producerInstr_port _)]
  rfl

/-- With an idle word on the producer port, a step of `sync_fifo` is the consumer's operation. -/
theorem step_eq_consumer (hw : s.nextFrame.pins.pCmd % 2 = 0) :
    step s = exec (decodeC s.cfg.W s.nextFrame.pins.cCmd) s.latchFrame := by
  have hd : s.latchFrame.producerInstr = .pnop := decodeP_of_even _ hw
  rw [step_eq_bothPorts hl hr hc hb, bothPorts, hd, joinPorts_pnop (State.consumerInstr_port _)]
  rfl

end SyncStep

/-! An accepted word is the atomic transition of `sync_fifo` or the step ACCEPT of `async_fifo`. -/

theorem exec_put_sync (hl : s.life = .running) (hp : s.wd.pPhase = .idle) (ho : s.invOkW = true)
    (hb : s.cfg.block = .sync) (hn : n ≤ s.source.length) : exec (.put n) s = .next (s.putAtomic n) := by
  simp [execPut, hl, hp, ho, hb, sourceSuffices, hn]

theorem exec_put_async (hl : s.life = .running) (hp : s.wd.pPhase = .idle) (ho : s.invOkW = true)
    (hb : s.cfg.block = .async) (hn : n ≤ s.source.length) : exec (.put n) s = .next (s.acceptPut n) := by
  simp [execPut, hl, hp, ho, hb, sourceSuffices, hn]

theorem exec_get_sync (hl : s.life = .running) (hp : s.rd.cPhase = .idle) (ho : s.invOkR = true)
    (hb : s.cfg.block = .sync) (n : Nat) : exec (.get n) s = .next (s.getAtomic n) := by
  simp [execGet, hl, hp, ho, hb]

theorem exec_get_async (hl : s.life = .running) (hp : s.rd.cPhase = .idle) (ho : s.invOkR = true)
    (hb : s.cfg.block = .async) (n : Nat) : exec (.get n) s = .next (s.acceptGet n) := by
  simp [execGet, hl, hp, ho, hb]

/-- A PUT on an idle port whose check passes looks at its source next, and one that is too short has no meaning
(R94, R164). -/
theorem exec_put_of_short (hl : s.life = .running) (hp : s.wd.pPhase = .idle) (ho : s.invOkW = true)
    (hshort : s.source.length < n) : exec (.put n) s = .refused .sourceTooShort := by
  have hsrc : sourceSuffices s.source n = false := decide_eq_false (Nat.not_le.mpr hshort)
  simp [execPut, hl, hp, ho, hsrc]

/-- The word on an idle producer port whose check passes is a PNOP, or a PUT with a source that suffices. -/
theorem exec_producerInstr_next (hl : s.life = .running) (hp : s.wd.pPhase = .idle) (ho : s.invOkW = true)
    (h : exec s.producerInstr s = .next t) :
    (s.producerInstr = .pnop ∧ t = s) ∨
      ∃ n, s.producerInstr = .put n ∧ n ≤ s.source.length ∧ exec (.put n) s = .next t := by
  obtain ⟨-, hd⟩ | ⟨-, hd⟩ := decodeP_cases s.cfg.W s.pins.pCmd <;> rw [State.producerInstr, hd] at h
  · refine .inr ⟨_, hd, Nat.not_lt.mp fun hshort => ?_, h⟩
    rw [exec_put_of_short hl hp ho hshort] at h
    cases h
  · exact .inl ⟨hd, by simpa using h.symm⟩

/-- The word on the consumer port is a CNOP or a GET. -/
theorem exec_consumerInstr_next (h : exec s.consumerInstr s = .next t) :
    (s.consumerInstr = .cnop ∧ t = s) ∨ ∃ n, s.consumerInstr = .get n ∧ exec (.get n) s = .next t := by
  obtain ⟨-, hd⟩ | ⟨-, hd⟩ := decodeC_cases s.cfg.W s.pins.cCmd <;> rw [State.consumerInstr, hd] at h
  · exact .inr ⟨_, hd, h⟩
  · exact .inl ⟨hd, by simpa using h.symm⟩

/-- The checks of a block are those of its two ports (R28). -/
theorem State.checksOk_iff : s.checksOk = true ↔ s.invOkW = true ∧ s.invOkR = true := by simp [State.checksOk]

/-! In `sync_fifo` each port knows the true cursors, so both checks are the distance of the invariant. -/

theorem SyncInv.invOkW (i : SyncInv s) : s.invOkW = true := by
  simpa [State.invOkW, State.producerView, i.block, invOk_iff] using i.distance

theorem SyncInv.invOkR (i : SyncInv s) : s.invOkR = true := by
  simpa [State.invOkR, State.consumerView, i.block, invOk_iff] using i.distance

theorem SyncInv.checksOk (i : SyncInv s) : s.checksOk = true := State.checksOk_iff.mpr ⟨i.invOkW, i.invOkR⟩

theorem SyncInv.exec_put (i : SyncInv s) (hn : n ≤ s.source.length) : exec (.put n) s = .next (s.putAtomic n) :=
  exec_put_sync i.life i.pPhase i.invOkW i.block hn

theorem SyncInv.exec_get (i : SyncInv s) (n : Nat) : exec (.get n) s = .next (s.getAtomic n) :=
  exec_get_sync i.life i.cPhase i.invOkR i.block n

/-- The word on the producer port is a PNOP or an atomic PUT. -/
theorem SyncInv.producer_next (i : SyncInv s) (h : exec s.producerInstr s = .next t) :
    (s.producerInstr = .pnop ∧ t = s) ∨
      ∃ n, s.producerInstr = .put n ∧ n ≤ s.source.length ∧ t = s.putAtomic n := by
  obtain hidle | ⟨n, hd, hn, h⟩ := exec_producerInstr_next i.life i.pPhase i.invOkW h
  · exact .inl hidle
  · exact .inr ⟨n, hd, hn, by simpa [i.exec_put hn] using h.symm⟩

/-- The word on the consumer port is a CNOP or an atomic GET. -/
theorem SyncInv.consumer_next (i : SyncInv s) (h : exec s.consumerInstr s = .next t) :
    (s.consumerInstr = .cnop ∧ t = s) ∨ ∃ n, s.consumerInstr = .get n ∧ t = s.getAtomic n := by
  obtain hidle | ⟨n, hd, h⟩ := exec_consumerInstr_next h
  · exact .inl hidle
  · exact .inr ⟨n, hd, by simpa [i.exec_get] using h.symm⟩

/-- A step that releases reset on the invariant is both ports' operations. -/
theorem SyncInv.step_eq (i : SyncInv s) (hr : s.nextFrame.pins.rstN % 2 = 1) : step s = bothPorts s.latchFrame :=
  step_eq_bothPorts i.life hr i.checksOk i.block

end Steps

/-- Settles O37: with reset asserted, on a held ring, and by block on a running one. -/
theorem stepRunsTheDecodedOperations : Obligations.StepRunsTheDecodedOperations := by
  intro s
  refine ⟨step_of_reset, step_of_held, fun hr hl hc => ⟨fun hb => ⟨?_, ?_, ?_⟩, fun hb ha hp => ?_,
    fun hb ha hp => ?_⟩⟩
  · exact step_eq_bothPorts hl hr hc hb
  · exact step_eq_producer hl hr hc hb
  · exact step_eq_consumer hl hr hc hb
  · rw [step_eq_agentStep hl hr hc hb, ha, agentStep, if_pos (by simpa using hp)]
    rfl
  · rw [step_eq_agentStep hl hr hc hb, ha, agentStep, if_pos (by simpa using hp)]
    rfl

/-- Settles O20: an idle word is one whose opcode bit is clear. -/
theorem idleWordsChangeNothing : Obligations.IdleWordsChangeNothing :=
  ⟨fun L _ h => ⟨decodeP_of_even L h, decodeC_of_even L h⟩, fun s => ⟨exec_pnop s, exec_cnop s⟩⟩

/-- Settles O22: on an idle port with its check passed, the source is the next thing a PUT looks at. -/
theorem shortSourceIsRefused : Obligations.ShortSourceIsRefused :=
  fun _ _ hl hp ho hshort => exec_put_of_short hl hp ho hshort

/-- Settles O30: on the invariant each port's operation answers a next state, and so do both together. -/
theorem syncStepsAreTotal : Obligations.SyncStepsAreTotal := by
  intro s i hr hsrc
  have iu := i.latchFrame
  have hput : ∃ sp, exec s.latchFrame.producerInstr s.latchFrame = .next sp := by
    obtain ⟨-, hd⟩ | ⟨-, hd⟩ := decodeP_cases s.latchFrame.cfg.W s.latchFrame.pins.pCmd <;>
      rw [State.producerInstr, hd]
    · exact ⟨_, iu.exec_put (hsrc _ hd)⟩
    · exact ⟨_, exec_pnop _⟩
  have hget : ∃ sc, exec s.latchFrame.consumerInstr s.latchFrame = .next sc := by
    obtain ⟨-, hd⟩ | ⟨-, hd⟩ := decodeC_cases s.latchFrame.cfg.W s.latchFrame.pins.cCmd <;>
      rw [State.consumerInstr, hd]
    · exact ⟨_, iu.exec_get _⟩
    · exact ⟨_, exec_cnop _⟩
  obtain ⟨sp, hp⟩ := hput
  obtain ⟨sc, hc⟩ := hget
  exact ⟨sp.setRd sc.rd, by rw [i.step_eq hr, bothPorts, hp, hc]; rfl⟩

end Sys2Proof.Machine

/-! ## Split copies by position

The cells a PUT writes and a GET reads, named by the positions of the transfer instead of by the two segments
(R74, R75, R91, R92). -/

namespace Sys2Proof.Machine

section SplitCopy
variable {C W pos n off i draw : Nat} {m : Memory} {src bytes : List Byte}

section CopyIn
variable (hc : capOk C W = true) (hm : m.wf) (hn : n ≤ C) (hlen : n ≤ src.length)
include hc hm hn hlen

/-- The copy stores byte `i` of the source at the cell of position `pos + i`. -/
theorem stored?_copyIn_cell (hi : i < n) :
    (m.copyIn (index C pos) (seg1 C pos n) (seg2 C pos n) src).stored? (index C ((pos + i) % 2 ^ W)) = src[i]? := by
  have hfit : seg1 C pos n + seg2 C pos n ≤ src.length := (seg1_add_seg2 C pos n).trans_le hlen
  have hsum := seg1_add_seg2 C pos n
  have hlow := seg2_le_index (pos := pos) (capOk_pos hc) hn
  rw [Memory.stored?_copyIn hm hfit, index_add_eq_segments hc hn hi]
  split
  · rw [if_neg (by omega), if_pos (by omega), Nat.add_sub_cancel_left]
  · rw [if_pos (by omega), Nat.add_sub_cancel' (by omega)]

/-- The copy leaves every cell of no position of the transfer as it was. -/
theorem stored?_copyIn_of_ne (hoff : ∀ i, i < n → off ≠ index C ((pos + i) % 2 ^ W)) :
    (m.copyIn (index C pos) (seg1 C pos n) (seg2 C pos n) src).stored? off = m.stored? off := by
  have hfit : seg1 C pos n + seg2 C pos n ≤ src.length := (seg1_add_seg2 C pos n).trans_le hlen
  have hsum := seg1_add_seg2 C pos n
  rw [Memory.stored?_copyIn hm hfit, if_neg, if_neg]
  · intro hin
    have hcell := index_add_eq_segments (pos := pos) (i := off - index C pos) hc hn (by omega)
    rw [if_pos (by omega)] at hcell
    exact hoff (off - index C pos) (by omega) (by omega)
  · intro hin
    have hcell := index_add_eq_segments (pos := pos) (i := seg1 C pos n + off) hc hn (by omega)
    rw [if_neg (by omega)] at hcell
    exact hoff (seg1 C pos n + off) (by omega) (by omega)

end CopyIn

/-- The copy of the whole transfer reads `n` bytes. -/
theorem copyOut_segments_length (draw : Nat) (m : Memory) (C pos n : Nat) :
    (m.copyOut draw (index C pos) (seg1 C pos n) (seg2 C pos n)).length = n := by
  rw [Memory.copyOut_length, seg1_add_seg2]

section CopyOut
variable (hc : capOk C W = true) (hn : n ≤ C)
include hc hn

/-- The copy reads as byte `i` the cell of position `pos + i`. -/
theorem copyOut_getElem?_cell (hi : i < n) :
    (m.copyOut draw (index C pos) (seg1 C pos n) (seg2 C pos n))[i]? =
      some (m.read draw (index C ((pos + i) % 2 ^ W))) := by
  rw [Memory.copyOut_getElem? _ _ _ _ _ _ (by rwa [seg1_add_seg2]), index_add_eq_segments hc hn hi]

/-- The copy reads the bytes the cells of its positions hold, whatever the unspecified contents (R107). -/
theorem copyOut_eq_take (hlen : n ≤ bytes.length)
    (hcells : ∀ i, i < n → m.stored? (index C ((pos + i) % 2 ^ W)) = bytes[i]?) :
    m.copyOut draw (index C pos) (seg1 C pos n) (seg2 C pos n) = bytes.take n := by
  refine List.ext_getElem? fun i => ?_
  by_cases hi : i < n
  · rw [copyOut_getElem?_cell hc hn hi, List.getElem?_take_of_lt hi, Memory.read, hcells i hi,
      List.getElem?_eq_getElem (hi.trans_le hlen)]
    rfl
  · rw [List.getElem?_eq_none (by rw [copyOut_segments_length]; omega),
      List.getElem?_eq_none (by rw [List.length_take]; omega)]

/-- A copy of cells that all hold stored bytes does not depend on the draw of the unspecified ones (R107). -/
theorem copyOut_draw_eq (hcells : ∀ i, i < n → (m.stored? (index C ((pos + i) % 2 ^ W))).isSome = true)
    (draw' : Nat) :
    m.copyOut draw' (index C pos) (seg1 C pos n) (seg2 C pos n) =
      m.copyOut draw (index C pos) (seg1 C pos n) (seg2 C pos n) := by
  have hlen := copyOut_segments_length draw m C pos n
  refine (copyOut_eq_take hc hn hlen.ge fun i hi => ?_).trans (List.take_of_length_le hlen.le)
  obtain ⟨b, hb⟩ := Option.isSome_iff_exists.mp (hcells i hi)
  rw [copyOut_getElem?_cell hc hn hi, Memory.read, hb]
  rfl

end CopyOut

end SplitCopy

section Cores
variable {C W w r req : Nat} {m : Memory} {src : List Byte}

/-- A GET with nothing queued moves no cursor and reads no byte (R92). -/
theorem getCore_of_empty (hr : r < 2 ^ W) (hd : cursorDist W w r = 0) (draw : Nat) :
    getCore C W draw m w r req = { readCursor := r, count := 0, out := [] } := by
  have hn : clampGet W req w r = 0 := Nat.le_zero.mp (hd ▸ clampGet_le W req w r)
  have hout := copyOut_segments_length draw m C r 0
  simp [getCore, hn, adv_zero (fitsIn_iff.mpr hr), List.eq_nil_of_length_eq_zero hout]

/-- A GET of queued cells that all hold stored bytes does not depend on the draw of the unspecified ones (R107). -/
theorem getCore_draw_eq (hc : capOk C W = true) (hdist : cursorDist W w r ≤ C)
    (hcells : ∀ j, j < cursorDist W w r → (m.stored? (index C ((r + j) % 2 ^ W))).isSome = true) (draw draw' : Nat) :
    getCore C W draw' m w r req = getCore C W draw m w r req := by
  have hn := clampGet_le W req w r
  have hout := copyOut_draw_eq (draw := draw) hc (hn.trans hdist) (fun j hj => hcells j (hj.trans_le hn)) draw'
  rw [getCore, hout, getCore]

end Cores

end Sys2Proof.Machine

/-! ## PUT and GET of `sync_fifo` -/

namespace Sys2Proof.Machine

section SyncResults
variable {s : State} {req n : Nat}

/-- What an atomic PUT leaves in storage (R94). -/
theorem State.storage_putAtomic (s : State) (req : Nat) :
    (s.putAtomic req).storage =
      (putCore s.cfg.C s.cfg.W s.storage s.wd.writeCursor s.rd.readCursor s.source req).storage := rfl

/-- An atomic GET with the result of GetCore at hand (R95). -/
theorem State.getAtomic_eq (s : State) {req : Nat} {res : GetResult}
    (h : getCore s.cfg.C s.cfg.W s.draw s.storage s.wd.writeCursor s.rd.readCursor req = res) :
    s.getAtomic req = s.setRd
      { s.rd with readCursor := res.readCursor, cReturn := some { count := res.count, data := res.out } } := by
  rw [← h]
  rfl

/-- What an atomic GET returns (R95). -/
theorem State.cReturn_getAtomic (s : State) (req : Nat) :
    (s.getAtomic req).rd.cReturn =
      some { count := clampGet s.cfg.W req s.wd.writeCursor s.rd.readCursor
             data := (getCore s.cfg.C s.cfg.W s.draw s.storage s.wd.writeCursor s.rd.readCursor req).out } := rfl

/-- The invariant after an atomic PUT, an idle consumer being a GET of 0 (R100). -/
theorem SyncInv.putAtomic (i : SyncInv s) (req : Nat) : SyncInv (s.putAtomic req) :=
  (i.join (i.putAdvance_putAtomic req) i.getAdvance_refl : SyncInv ((s.putAtomic req).setRd s.rd))

/-- The distance grows by the count of a PUT (R80). -/
theorem SyncInv.cursorDist_putAtomic (i : SyncInv s) (req : Nat) :
    cursorDist s.cfg.W (s.putAtomic req).wd.writeCursor s.rd.readCursor =
      cursorDist s.cfg.W s.wd.writeCursor s.rd.readCursor +
        clampPut s.cfg.C s.cfg.W req s.wd.writeCursor s.rd.readCursor := by
  obtain ⟨⟨hput, -⟩, -⟩ := advancesKeepInvariantTwo _ _ _ _ _ 0 i.legal.1 (fitsIn_iff.mp i.writeCursor_fits)
    (fitsIn_iff.mp i.readCursor_fits) (invOk_iff.mpr i.distance) (Nat.min_le_right ..) (Nat.zero_le _)
  exact hput

/-- The distance shrinks by the count of a GET (R80). -/
theorem SyncInv.cursorDist_getAtomic (i : SyncInv s) (req : Nat) :
    cursorDist s.cfg.W s.wd.writeCursor (s.getAtomic req).rd.readCursor =
      cursorDist s.cfg.W s.wd.writeCursor s.rd.readCursor -
        clampGet s.cfg.W req s.wd.writeCursor s.rd.readCursor := by
  obtain ⟨-, hget, -⟩ := advancesKeepInvariantTwo _ _ _ _ 0 _ i.legal.1 (fitsIn_iff.mp i.writeCursor_fits)
    (fitsIn_iff.mp i.readCursor_fits) (invOk_iff.mpr i.distance) (Nat.zero_le _) (clampGet_le ..)
  exact hget

/-- What an atomic PUT leaves at the cells of its positions (R91). -/
theorem SyncInv.stored?_putAtomic_cell (i : SyncInv s) (hlen : req ≤ s.source.length) {j : Nat}
    (hj : j < clampPut s.cfg.C s.cfg.W req s.wd.writeCursor s.rd.readCursor) :
    (s.putAtomic req).storage.stored? (index s.cfg.C ((s.wd.writeCursor + j) % 2 ^ s.cfg.W)) = s.source[j]? :=
  stored?_copyIn_cell i.legal.1 i.storage_wf (clampPut_le ..) ((clampPut_le_req ..).trans hlen) hj

/-- What an atomic PUT leaves at every other cell (R91). -/
theorem SyncInv.stored?_putAtomic_of_ne (i : SyncInv s) (hlen : req ≤ s.source.length) {off : Nat}
    (hoff : ∀ j, j < clampPut s.cfg.C s.cfg.W req s.wd.writeCursor s.rd.readCursor →
      off ≠ index s.cfg.C ((s.wd.writeCursor + j) % 2 ^ s.cfg.W)) :
    (s.putAtomic req).storage.stored? off = s.storage.stored? off :=
  stored?_copyIn_of_ne i.legal.1 i.storage_wf (clampPut_le ..) ((clampPut_le_req ..).trans hlen) hoff

/-- The count of a GET is a count of cells. -/
theorem SyncInv.clampGet_le_capacity (i : SyncInv s) (req : Nat) :
    clampGet s.cfg.W req s.wd.writeCursor s.rd.readCursor ≤ s.cfg.C :=
  (clampGet_le ..).trans i.distance

/-- A GET with nothing queued returns 0 and changes nothing but its result (R103). -/
theorem State.getAtomic_of_empty (hr : s.rd.readCursor < 2 ^ s.cfg.W)
    (hd : cursorDist s.cfg.W s.wd.writeCursor s.rd.readCursor = 0) (req : Nat) :
    s.getAtomic req = s.setRd { s.rd with cReturn := some { count := 0, data := [] } } :=
  s.getAtomic_eq (getCore_of_empty hr hd s.draw)

end SyncResults

/-- Settles O18: by the cells of the split copy and by the distance after the advance. -/
theorem syncPutResult : Obligations.SyncPutResult := by
  intro s req i hlen n cell
  have hdist := i.cursorDist_putAtomic req
  refine ⟨_, s.putAtomic req, i.exec_put hlen, rfl, fun j => i.stored?_putAtomic_cell hlen, fun off hoff => ?_,
    fun hpos => ?_, fun hall => ?_⟩
  · have hkept := i.stored?_putAtomic_of_ne hlen hoff
    exact ⟨hkept, congrArg (Option.getD · _) hkept⟩
  · refine Bool.eq_false_iff.mpr fun he => ?_
    have hzero : cursorDist s.cfg.W (s.putAtomic req).wd.writeCursor s.rd.readCursor = 0 := isEmpty_iff.mp he
    have hn : clampPut s.cfg.C s.cfg.W req s.wd.writeCursor s.rd.readCursor = n := rfl
    omega
  · refine isFull_iff.mpr (hdist.trans ?_)
    have hn : clampPut s.cfg.C s.cfg.W req s.wd.writeCursor s.rd.readCursor = n := rfl
    rw [hn, hall, Nat.add_sub_cancel' i.distance]
    rfl

/-- Settles O19: by the cells of the split copy and by the distance after the advance. -/
theorem syncGetResult : Obligations.SyncGetResult := by
  intro s req i n
  have hdist := i.cursorDist_getAtomic req
  have hn : clampGet s.cfg.W req s.wd.writeCursor s.rd.readCursor = n := rfl
  have hC := i.distance
  refine ⟨_, s.getAtomic req, i.exec_get req, rfl, copyOut_segments_length .., fun j =>
    copyOut_getElem?_cell i.legal.1 (i.clampGet_le_capacity req), fun hpos => ?_, fun hall => ?_⟩
  · refine Bool.eq_false_iff.mpr fun hf => ?_
    have hfull : cursorDist s.cfg.W s.wd.writeCursor (s.getAtomic req).rd.readCursor = s.cfg.C := isFull_iff.mp hf
    have hle := clampGet_le s.cfg.W req s.wd.writeCursor s.rd.readCursor
    omega
  · refine isEmpty_iff.mpr (hdist.trans ?_)
    rw [hn, hall, Nat.sub_self]

/-- Settles O26: with equal cursors nothing is queued, and no byte replaces none of the destination. -/
theorem getOnAnEmptyRingLeavesTheDestination : Obligations.GetOnAnEmptyRingLeavesTheDestination := by
  intro s req i he
  have hd : cursorDist s.cfg.W s.wd.writeCursor s.rd.readCursor = 0 := by rw [he, cursorDist_self]
  have hget := State.getAtomic_of_empty (fitsIn_iff.mp i.readCursor_fits) hd req
  exact ⟨_, i.exec_get req, hget, fun dest => by rw [hget]; rfl⟩

/-- Settles O25: the free space of an empty ring is its capacity, the PUT leaves the bytes it accepted at the cells
from the write cursor on, and the GET reads from that same position. -/
theorem roundTripThroughAnEmptyRing : Obligations.RoundTripThroughAnEmptyRing := by
  intro s req back i he hlen n
  have hcount : clampPut s.cfg.C s.cfg.W req s.wd.writeCursor s.rd.readCursor = n := by
    rw [clampPut, free, he, cursorDist_self]
    rfl
  have hdist : cursorDist s.cfg.W (s.putAtomic req).wd.writeCursor s.rd.readCursor = n := by
    rw [i.cursorDist_putAtomic req, hcount, he, cursorDist_self, Nat.zero_add]
  have it := i.putAtomic req
  have hback : clampGet s.cfg.W back (s.putAtomic req).wd.writeCursor s.rd.readCursor = min back n :=
    congrArg (min back) hdist
  have hout : (s.putAtomic req).storage.copyOut s.draw (index s.cfg.C s.rd.readCursor)
      (seg1 s.cfg.C s.rd.readCursor (min back n)) (seg2 s.cfg.C s.rd.readCursor (min back n)) =
      s.source.take (min back n) := by
    refine copyOut_eq_take i.legal.1 (by omega) (by omega) fun j hj => ?_
    rw [← he]
    exact i.stored?_putAtomic_cell hlen (by omega)
  refine ⟨_, _, i.exec_put hlen, congrArg some hcount, fun hall => isFull_iff.mpr (hdist.trans hall),
    it.exec_get back, ?_⟩
  rw [State.cReturn_getAtomic, ← hout, ← hback]
  rfl

/-- Settles O21: a step is both operations on the latched state, where the cursors and storage are those before the
step; the rest is the invariant after it and the two disjoint regions before it. -/
theorem sameStepPutAndGetUseTheOldState : Obligations.SameStepPutAndGetUseTheOldState := by
  intro s plen clen i hr hput hget hlen p g
  have iu := i.latchFrame
  have hstep : step s = .next ((s.latchFrame.putAtomic plen).setRd (s.latchFrame.getAtomic clen).rd) := by
    have hp : s.latchFrame.producerInstr = .put plen := hput
    have hg : s.latchFrame.consumerInstr = .get clen := hget
    rw [i.step_eq hr, bothPorts, hp, hg, iu.exec_put hlen, iu.exec_get]
    rfl
  refine ⟨_, hstep, rfl, (syncStepsKeepTheInvariant _ _ i hstep).distance, fun j k hj hk => ?_⟩
  exact producerAndConsumerRegionsAreDisjoint _ _ _ _ _ _ i.legal.1 (fitsIn_iff.mp i.writeCursor_fits)
    (fitsIn_iff.mp i.readCursor_fits) (invOk_iff.mpr i.distance) (hj.trans_le (Nat.min_le_right _ _))
    (hk.trans_le (clampGet_le ..))

/-- Settles O27: from 5 the first segment is the three cells up to the end, the second the three from 0 on. -/
theorem wrapAroundScenarioSplitsThreeAndThree : Obligations.WrapAroundScenarioSplitsThreeAndThree := by
  intro s hcfg hl hwd hrd hm hsrc
  obtain ⟨cfg, life, draw, storage, wd, rd, ⟨rstN, pCmd, pData, cCmd⟩, inputs⟩ := s
  subst hcfg hl hwd hrd hm hsrc
  have hsplit : (putCore 8 4 [(0, 0x31), (1, 0x32), (2, 0x33), (3, 0x34), (4, 0x35)] 5 5
      [0x41, 0x42, 0x43, 0x44, 0x45, 0x46] 6).storage =
      [(0, 0x44), (1, 0x45), (2, 0x46), (3, 0x34), (4, 0x35), (5, 0x41), (6, 0x42), (7, 0x43)] := by decide
  exact ⟨_, exec_put_sync rfl rfl rfl rfl (Nat.le_refl 6), rfl, rfl,
    (State.storage_putAtomic _ _).trans hsplit⟩

end Sys2Proof.Machine

/-! ## The steps of a transaction by phase

Each phase of PROD and of CONS has its one step, and `advance` has two (the tables of R114 and R120). -/

namespace Sys2Proof.Machine

section Phases
variable {s : State}

theorem prodStep_idle (h : s.wd.pPhase = .idle) : s.prodStep = s := by simp [State.prodStep, h]
theorem prodStep_sample (h : s.wd.pPhase = .sample) : s.prodStep = s.samplePut := by simp [State.prodStep, h]
theorem prodStep_copy (h : s.wd.pPhase = .copy) : s.prodStep = s.copyPut := by simp [State.prodStep, h]
theorem prodStep_barrier (h : s.wd.pPhase = .barrier) : s.prodStep = s.barrierPut := by simp [State.prodStep, h]
theorem prodStep_adv1 (h : s.wd.pPhase = .advance) (hleft : 0 < s.wd.pLeft) : s.prodStep = s.adv1Put := by
  simp [State.prodStep, h, hleft]
theorem prodStep_finish (h : s.wd.pPhase = .advance) (hleft : s.wd.pLeft = 0) : s.prodStep = s.finishPut := by
  simp [State.prodStep, h, hleft]
theorem prodStep_done (h : s.wd.pPhase = .done) : s.prodStep = s.donePut := by simp [State.prodStep, h]

theorem consStep_idle (h : s.rd.cPhase = .idle) : s.consStep = s := by simp [State.consStep, h]
theorem consStep_sample (h : s.rd.cPhase = .sample) : s.consStep = s.sampleGet := by simp [State.consStep, h]
theorem consStep_copy (h : s.rd.cPhase = .copy) : s.consStep = s.copyGet := by simp [State.consStep, h]
theorem consStep_barrier (h : s.rd.cPhase = .barrier) : s.consStep = s.barrierGet := by simp [State.consStep, h]
theorem consStep_adv1 (h : s.rd.cPhase = .advance) (hleft : 0 < s.rd.cLeft) : s.consStep = s.adv1Get := by
  simp [State.consStep, h, hleft]
theorem consStep_finish (h : s.rd.cPhase = .advance) (hleft : s.rd.cLeft = 0) : s.consStep = s.finishGet := by
  simp [State.consStep, h, hleft]
theorem consStep_done (h : s.rd.cPhase = .done) : s.consStep = s.doneGet := by simp [State.consStep, h]

/-- ACCEPT of a GET leaves the view as it is (R120). -/
theorem State.acceptGet_wrSeen (s : State) (req : Nat) : (s.acceptGet req).wrSeen = s.wrSeen := rfl

/-- A GET that sees nothing queued runs its five further steps and returns 0, its cursor where it was (R120). -/
theorem repeatStep_consStep_of_empty (hp : s.rd.cPhase = .sample)
    (hd : cursorDist s.cfg.W s.wrSeen s.rd.readCursor = 0) :
    repeatStep State.consStep 5 s = s.setRd
      { s.rd with cPhase := .idle, cN := 0, cL1 := 0, cL2 := 0, cLeft := 0, cOut := [],
                  cReturn := some { count := 0, data := [] } } := by
  have hn : clampGet s.cfg.W s.rd.cReq s.wrSeen s.rd.readCursor = 0 := Nat.le_zero.mp (hd ▸ clampGet_le ..)
  have hsample : s.consStep = s.setRd { s.rd with cPhase := .copy, cN := 0, cL1 := 0, cL2 := 0 } := by
    rw [consStep_sample hp, State.sampleGet, hn, seg1, seg2, seg1, Nat.zero_min]
  rw [repeatStep, hsample]
  rfl

end Phases

section Built
variable (cfg : Config) (inputs : List Frame)

/-- A ring just constructed shows its consumer what construction leaves. -/
@[simp] theorem State.built_wrSeen : (State.built cfg inputs).wrSeen = 0 :=
  State.construct_wrSeen (State.unbuilt cfg inputs)

@[simp] theorem State.built_checksOk : (State.built cfg inputs).checksOk = true :=
  State.construct_checksOk (State.unbuilt cfg inputs)

end Built

/-- Settles O24: both cursors and the consumer's view of the write cursor are 0, so nothing is queued. -/
theorem getOnAFreshRingReturnsZero : Obligations.GetOnAFreshRingReturnsZero := by
  intro cfg inputs req _
  obtain ⟨-, ho⟩ := State.checksOk_iff.mp (State.built_checksOk cfg inputs)
  refine ⟨fun hb => ⟨_, exec_get_sync rfl rfl ho hb req, ?_⟩,
    fun hb => ⟨_, exec_get_async rfl rfl ho hb req, ?_⟩⟩
  · have hempty : cursorDist cfg.W (State.built cfg inputs).wd.writeCursor 0 = 0 := cursorDist_self _ _
    rw [State.getAtomic_of_empty (Nat.two_pow_pos _) hempty]
    exact ⟨rfl, rfl⟩
  · have hempty : cursorDist cfg.W ((State.built cfg inputs).acceptGet req).wrSeen 0 = 0 := by
      simp [State.acceptGet_wrSeen]
    rw [repeatStep_consStep_of_empty rfl hempty]
    exact ⟨rfl, rfl, rfl⟩

end Sys2Proof.Machine

/-! ## Bytes of a stream in storage

The positions from `lo` up to `hi` that hold the bytes of a stream: what the split copies do to such a range
(R106, R131). -/

namespace Sys2Proof.Machine

/-- The cells of the positions from `lo` up to `hi` hold the bytes of a stream at these positions. -/
def Memory.holds (C W : Nat) (m : Memory) (bytes : List Byte) (lo hi : Nat) : Prop :=
  ∀ k : Nat, lo ≤ k → k < hi → m.stored? (index C (k % 2 ^ W)) = bytes[k]?

section Holds
variable {C W n lo lo' hi draw : Nat} {m : Memory} {src bytes : List Byte}

theorem Memory.holds.of_le (h : m.holds C W bytes lo hi) (hle : lo ≤ lo') : m.holds C W bytes lo' hi :=
  fun k hk => h k (hle.trans hk)

/-- A stream that grows keeps the bytes it has. -/
theorem Memory.holds.append (h : m.holds C W bytes lo hi) (hle : hi ≤ bytes.length) (more : List Byte) :
    m.holds C W (bytes ++ more) lo hi :=
  fun k hlo hhi => (h k hlo hhi).trans (List.getElem?_append_left (hhi.trans_le hle)).symm

/-- The copy of the next bytes of the stream extends the range and, while this is no longer than the storage,
overwrites none of it. -/
theorem Memory.holds.copyIn (hc : capOk C W = true) (hm : m.wf) (h : m.holds C W bytes lo hi) (hle : lo ≤ hi)
    (hroom : hi + n ≤ lo + C) (hlen : n ≤ src.length) (hsrc : ∀ i, i < n → src[i]? = bytes[hi + i]?) :
    (m.copyIn (index C (hi % 2 ^ W)) (seg1 C (hi % 2 ^ W) n) (seg2 C (hi % 2 ^ W) n) src).holds C W bytes lo
      (hi + n) := by
  intro k hlo hhi
  by_cases hk : k < hi
  · rw [stored?_copyIn_of_ne hc hm (by omega) hlen, h k hlo hk]
    intro i hi'
    rw [Nat.mod_add_mod]
    exact index_mod_ne_of_lt hc (by omega) (by omega)
  · obtain ⟨i, rfl⟩ := Nat.exists_eq_add_of_le (Nat.not_lt.mp hk)
    rw [← hsrc i (by omega), ← stored?_copyIn_cell (pos := hi % 2 ^ W) hc hm (by omega) hlen (by omega),
      Nat.mod_add_mod]

/-- The copy of the first cells of the range reads the bytes of the stream. -/
theorem Memory.holds.copyOut (hc : capOk C W = true) (h : m.holds C W bytes lo hi) (hle : hi ≤ bytes.length)
    (hn : lo + n ≤ hi) (hC : n ≤ C) :
    m.copyOut draw (index C (lo % 2 ^ W)) (seg1 C (lo % 2 ^ W) n) (seg2 C (lo % 2 ^ W) n) =
      (bytes.drop lo).take n := by
  refine copyOut_eq_take hc hC (by rw [List.length_drop]; omega) fun i hi' => ?_
  rw [Nat.mod_add_mod, List.getElem?_drop]
  exact h _ (by omega) (by omega)

end Holds

/-- The beginning of a stream, extended by the bytes that come next. -/
theorem prefix_append_take_drop {α : Type} {l bytes : List α} (h : l <+: bytes) (n : Nat) :
    l ++ (bytes.drop l.length).take n <+: bytes := by
  obtain ⟨rest, rfl⟩ := h
  rw [List.drop_left]
  exact (List.prefix_append_right_inj l).mpr (List.take_prefix n rest)

/-- The cursor that shows a total, advanced (R87). -/
theorem adv_mod (W c n : Nat) : adv W (c % 2 ^ W) n = (c + n) % 2 ^ W := Nat.mod_add_mod ..

/-- What is read off the front of a stream does not depend on what is appended behind. -/
theorem take_drop_append {α : Type} {bytes : List α} {k n : Nat} (h : k + n ≤ bytes.length) (more : List α) :
    ((bytes ++ more).drop k).take n = (bytes.drop k).take n := by
  rw [List.drop_append_of_le_length (by omega), List.take_append_of_le_length (by rw [List.length_drop]; omega)]

end Sys2Proof.Machine

/-! ## The FIFO law of `sync_fifo`

A step accepts bytes at the write cursor and delivers bytes from the read cursor of one and the same ring (R98,
R106). -/

namespace Sys2Proof.Machine

section SyncFifoSteps
variable {s t : State} {g : Streams} {n m : Nat}

@[simp] theorem State.setRd_source (s : State) (rd : ReadDomain) : (s.setRd rd).source = s.source := rfl

/-- The step of a running `sync_fifo` is both ports' operations on the latched state. -/
theorem SyncInv.step_next (i : SyncInv s) (h : step s = .next t) :
    s.nextFrame.pins.rstN % 2 = 1 ∧ bothPorts s.latchFrame = .next t := by
  obtain ⟨hr, -, ⟨-, hboth⟩ | ⟨hb, -⟩⟩ := step_running_next i.life h
  · exact ⟨hr, hboth⟩
  · simp [i.block] at hb

/-- The clause on the difference follows from those on the two cursors (R79). -/
theorem SyncFifo.of_cursors (inOrder : g.delivered <+: g.accepted)
    (hw : g.accepted.length % 2 ^ s.cfg.W = s.wd.writeCursor)
    (hr : g.delivered.length % 2 ^ s.cfg.W = s.rd.readCursor)
    (hlt : g.accepted.length - g.delivered.length < 2 ^ s.cfg.W)
    (stored : s.storage.holds s.cfg.C s.cfg.W g.accepted g.delivered.length g.accepted.length) : SyncFifo s g :=
  { inOrder := inOrder, writeCursor := hw, readCursor := hr, stored := stored
    difference := by rw [← hw, ← hr, cursorDist_mod_mod inOrder.length_le hlt] }

/-- Taking a frame does not matter to the law. -/
theorem SyncFifo.latchFrame (f : SyncFifo s g) : SyncFifo s.latchFrame g :=
  ⟨f.inOrder, f.writeCursor, f.readCursor, f.difference, f.stored⟩

/-- The bytes a PUT accepts fit the free space: with them the stream is at most the capacity ahead (R91). -/
theorem SyncFifo.room (i : SyncInv s) (f : SyncFifo s g) (req : Nat) :
    g.accepted.length + clampPut s.cfg.C s.cfg.W req s.wd.writeCursor s.rd.readCursor ≤
      g.delivered.length + s.cfg.C := by
  have hfree : clampPut s.cfg.C s.cfg.W req s.wd.writeCursor s.rd.readCursor ≤
      s.cfg.C - (g.accepted.length - g.delivered.length) := f.difference ▸ Nat.min_le_right _ _
  have hdist : g.accepted.length - g.delivered.length ≤ s.cfg.C := f.difference ▸ i.distance
  have hle := f.inOrder.length_le
  omega

/-- A PUT appends the bytes it accepts. -/
theorem SyncFifo.putAtomic (i : SyncInv s) (f : SyncFifo s g) (hlen : n ≤ s.source.length) :
    SyncFifo (s.putAtomic n)
      { g with accepted := g.accepted ++
          s.source.take (clampPut s.cfg.C s.cfg.W n s.wd.writeCursor s.rd.readCursor) } := by
  have hroom := f.room i n
  have hcount := (clampPut_le_req s.cfg.C s.cfg.W n s.wd.writeCursor s.rd.readCursor).trans hlen
  have hC := capOk_lt i.legal.1
  generalize hk : clampPut s.cfg.C s.cfg.W n s.wd.writeCursor s.rd.readCursor = count at hroom hcount ⊢
  have hlength : (g.accepted ++ s.source.take count).length = g.accepted.length + count := by
    rw [List.length_append, List.length_take_of_le hcount]
  refine SyncFifo.of_cursors (f.inOrder.trans (List.prefix_append _ _)) ?_ f.readCursor ?_ ?_
  · show _ = adv _ _ _
    rw [hlength, hk, ← f.writeCursor, adv_mod]
    rfl
  · have hlt : g.accepted.length + count - g.delivered.length < 2 ^ s.cfg.W := by omega
    rwa [← hlength] at hlt
  · rw [hlength, State.storage_putAtomic, putCore, hk, ← f.writeCursor]
    refine Memory.holds.copyIn i.legal.1 i.storage_wf (Memory.holds.append f.stored le_rfl _) f.inOrder.length_le
      hroom hcount fun j hj => ?_
    rw [List.getElem?_append_right (by omega), Nat.add_sub_cancel_left, List.getElem?_take_of_lt hj]

/-- A read cursor that advances over queued positions delivers their bytes. -/
theorem SyncFifo.setRd (f : SyncFifo s g) {rd : ReadDomain} (hm : g.delivered.length + m ≤ g.accepted.length)
    (hr : rd.readCursor = adv s.cfg.W s.rd.readCursor m) :
    SyncFifo (s.setRd rd)
      { g with delivered := g.delivered ++ (g.accepted.drop g.delivered.length).take m } := by
  have hlength : (g.delivered ++ (g.accepted.drop g.delivered.length).take m).length = g.delivered.length + m := by
    rw [List.length_append, List.length_take_of_le (by rw [List.length_drop]; omega)]
  have hlt : g.accepted.length - g.delivered.length < 2 ^ s.cfg.W := f.difference ▸ cursorDist_lt ..
  refine SyncFifo.of_cursors (prefix_append_take_drop f.inOrder m) f.writeCursor ?_ ?_ ?_
  · show _ = rd.readCursor
    rw [hlength, hr, ← f.readCursor, adv_mod]
    rfl
  · rw [hlength, ← Nat.sub_sub]
    exact (Nat.sub_le _ _).trans_lt hlt
  · rw [hlength]
    exact Memory.holds.of_le f.stored (Nat.le_add_right _ _)

/-- The producer's part of a step: the law holds with the bytes its result counts. -/
theorem SyncFifo.producer (i : SyncInv s) (f : SyncFifo s g) (hnone : s.wd.pReturn = none)
    (h : exec s.producerInstr s = .next t) :
    SyncFifo t { g with accepted := g.accepted ++ t.source.take (t.wd.pReturn.getD 0) } := by
  obtain ⟨-, rfl⟩ | ⟨n, -, hlen, rfl⟩ := i.producer_next h
  · simpa [hnone] using f
  · exact f.putAtomic i hlen

/-- The consumer's part of a step: it passes queued positions and delivers their bytes. -/
theorem SyncFifo.consumer (i : SyncInv s) (f : SyncFifo s g) (hnone : s.rd.cReturn = none)
    (h : exec s.consumerInstr s = .next t) :
    ∃ m, g.delivered.length + m ≤ g.accepted.length ∧ t.rd.readCursor = adv s.cfg.W s.rd.readCursor m ∧
      (t.rd.cReturn.map GetReturn.data).getD [] = (g.accepted.drop g.delivered.length).take m := by
  have hle := f.inOrder.length_le
  obtain ⟨-, rfl⟩ | ⟨n, -, rfl⟩ := i.consumer_next h
  · exact ⟨0, hle, (adv_zero i.readCursor_fits).symm, by simp [hnone]⟩
  · have hqueued : clampGet s.cfg.W n s.wd.writeCursor s.rd.readCursor ≤
        g.accepted.length - g.delivered.length := f.difference ▸ clampGet_le ..
    have hm : g.delivered.length + clampGet s.cfg.W n s.wd.writeCursor s.rd.readCursor ≤ g.accepted.length := by
      omega
    have hread := Memory.holds.copyOut (draw := s.draw) i.legal.1 f.stored le_rfl hm (i.clampGet_le_capacity n)
    rw [f.readCursor] at hread
    exact ⟨_, hm, rfl, hread⟩

/-- Both ports' operations keep the law, with the bytes accepted and delivered appended to the streams. -/
theorem SyncFifo.of_step (i : SyncInv s) (f : SyncFifo s g) (h : step s = .next t) : SyncFifo t (g.after s t) := by
  obtain ⟨-, hboth⟩ := i.step_next h
  obtain ⟨sp, sc, hp, hc, rfl⟩ := joinPorts_next hboth
  have hcfg : sp.cfg = s.latchFrame.cfg := exec_cfg hp
  have hrd : sp.rd = s.latchFrame.rd := (eachPortChangesOnlyItsOwnSide _ _ _ hp).2 (State.producerInstr_port _)
  have fp := f.latchFrame.producer i.latchFrame rfl hp
  obtain ⟨m, hm, hr, hdata⟩ := f.latchFrame.consumer i.latchFrame rfl hc
  have hmore := hm.trans (List.prefix_append g.accepted (sp.source.take (sp.wd.pReturn.getD 0))).length_le
  have fpc := fp.setRd hmore (hr.trans (by rw [hcfg, hrd]))
  rw [take_drop_append hm, ← hdata] at fpc
  simpa [Streams.after, bytesTaken, bytesRead, i.block] using fpc

end SyncFifoSteps

/-- The law of a ring just constructed, with empty streams. -/
theorem syncFifo_built (cfg : Config) (inputs : List Frame) :
    SyncFifo (State.built cfg inputs) { accepted := [], delivered := [] } :=
  SyncFifo.of_cursors List.prefix_rfl (Nat.zero_mod _) (Nat.zero_mod _) (Nat.two_pow_pos _)
    fun k _ hk => absurd hk (Nat.not_lt_zero k)

/-- Settles O31, by the two parts of a step. -/
theorem syncFifoLaw : Obligations.SyncFifoLaw :=
  ⟨fun cfg inputs _ _ => syncFifo_built cfg inputs, fun _ _ _ i f h => f.of_step i h⟩

end Sys2Proof.Machine

/-! ## The invariant of `async_fifo`, step by step

A step of PROD moves storage and the write domain with the total `K`, one of CONS the read domain with `D`, and a SYNC
step one chain (R111, R127). Each such move is checked once; the phases then say what they owe. -/

namespace Sys2Proof.Machine

/-- How the totals move with a step of an agent (R127). -/
def History.afterAgent (h : History) (a : Agent) (s : State) : History :=
  match a with
  | .host => h
  | .prod => if s.wd.pPhase = .advance ∧ 0 < s.wd.pLeft then { h with K := h.K + 1 } else h
  | .cons => if s.rd.cPhase = .advance ∧ 0 < s.rd.cLeft then { h with D := h.D + 1 } else h
  | .sw2r => { h with ks := shiftIn h.K h.ks }
  | .sr2w => { h with ds := shiftIn h.D h.ds }

theorem History.after_eq_afterAgent (h : History) (s : State) : h.after s = h.afterAgent s.nextFrame.agent s := rfl

section Totals
variable {s : State} {h : History}

theorem History.afterAgent_prod_of_ne (hp : s.wd.pPhase ≠ .advance) : h.afterAgent .prod s = h := by
  simp [History.afterAgent, hp]

theorem History.afterAgent_prod_finish (hleft : s.wd.pLeft = 0) : h.afterAgent .prod s = h := by
  simp [History.afterAgent, hleft]

theorem History.afterAgent_prod_adv1 (hp : s.wd.pPhase = .advance) (hleft : 0 < s.wd.pLeft) :
    h.afterAgent .prod s = { h with K := h.K + 1 } := by
  simp [History.afterAgent, hp, hleft]

theorem History.afterAgent_cons_of_ne (hp : s.rd.cPhase ≠ .advance) : h.afterAgent .cons s = h := by
  simp [History.afterAgent, hp]

theorem History.afterAgent_cons_finish (hleft : s.rd.cLeft = 0) : h.afterAgent .cons s = h := by
  simp [History.afterAgent, hleft]

theorem History.afterAgent_cons_adv1 (hp : s.rd.cPhase = .advance) (hleft : 0 < s.rd.cLeft) :
    h.afterAgent .cons s = { h with D := h.D + 1 } := by
  simp [History.afterAgent, hp, hleft]

end Totals

/-! ### A chain of stages -/

/-- A SYNC step on images is the image of the step on totals. -/
theorem shiftIn_map (f : Nat → Nat) (x : Nat) (l : List Nat) : shiftIn (f x) (l.map f) = (shiftIn x l).map f := by
  rw [shiftIn, shiftIn, List.map_dropLast, List.map_cons]

@[simp] theorem shiftIn_length (x : Nat) (l : List Nat) : (shiftIn x l).length = l.length := by simp [shiftIn]

section Chain
variable {x : Nat} {l : List Nat} (hl : (x :: l).Pairwise (fun a b => b ≤ a))
include hl

/-- Totals along a chain still never increase after a SYNC step. -/
theorem pairwise_shiftIn : (x :: shiftIn x l).Pairwise (fun a b => b ≤ a) := by
  refine List.pairwise_cons.mpr ⟨fun y hy => ?_, hl.sublist (List.dropLast_sublist _)⟩
  obtain rfl | hy := List.mem_cons.mp (List.mem_of_mem_dropLast hy)
  · exact le_rfl
  · exact (List.pairwise_cons.mp hl).1 y hy

/-- The total a chain samples may grow. -/
theorem pairwise_cons_of_le {y : Nat} (hle : x ≤ y) : (y :: l).Pairwise (fun a b => b ≤ a) := by
  obtain ⟨hhead, htail⟩ := List.pairwise_cons.mp hl
  exact List.pairwise_cons.mpr ⟨fun z hz => (hhead z hz).trans hle, htail⟩

/-- With a SYNC step the last stage shows no less than before, and no more than the register sampled. -/
theorem getLastD_shiftIn : l.getLastD 0 ≤ (shiftIn x l).getLastD 0 ∧ (shiftIn x l).getLastD 0 ≤ x := by
  obtain rfl | ⟨init, z, rfl⟩ := List.eq_nil_or_concat' l
  · exact ⟨le_rfl, Nat.zero_le x⟩
  · have hshift : shiftIn x (init ++ [z]) = x :: init := List.dropLast_concat (l₁ := x :: init)
    have hmem : (x :: init).getLastD 0 ∈ x :: init := by
      rw [List.getLastD_cons]
      exact List.getLastD_mem_cons ..
    rw [← List.cons_append] at hl
    rw [hshift]
    refine ⟨?_, ?_⟩
    · simpa using (List.pairwise_append.mp hl).2.2 _ hmem z (by simp)
    · obtain heq | hin := List.mem_cons.mp hmem
      · exact heq.le
      · exact (List.pairwise_cons.mp (List.pairwise_append.mp hl).1).1 _ hin

end Chain

/-! ### The moves of the agents -/

/-- The split copy of `n` bytes, at most the capacity, stays inside the storage (R81). -/
theorem copyIn_segments_within {C pos n : Nat} {m : Memory} {src : List Byte} (hC : 0 < C) (hm : m.within C)
    (hn : n ≤ C) : (m.copyIn (index C pos) (seg1 C pos n) (seg2 C pos n) src).within C := by
  have hoff := index_lt hC pos
  have hroom := seg1_le_room C pos n
  exact Memory.copyIn_within hm (by omega) ((Nat.sub_le _ _).trans hn) src

section Moves
variable {s : State} {h : History} {k n : Nat}

/-- A move of PROD: its registers count to `K + k`, and what it owes fits the free space it knows (R118, R128). -/
theorem AsyncInv.prodMove (i : AsyncInv s h) {m : Memory} {wd : WriteDomain}
    (hw : wd.writeCursor = (h.K + k) % 2 ^ s.cfg.W) (hg : wd.wgray = grayOf s.cfg.W (h.K + k))
    (hq : wd.wqRgray = s.wd.wqRgray)
    (howes : h.K + k + ((s.setStorage m).setWd wd).putOwes ≤ h.dSeen + s.cfg.C)
    (hput : ((s.setStorage m).setWd wd).putLatched) (hwf : m.wf) (hin : m.within s.cfg.C) :
    AsyncInv ((s.setStorage m).setWd wd) { h with K := h.K + k } :=
  { legal := i.legal, block := i.block, life := i.life, put := hput, get := i.get, storage_wf := hwf
    storage_within := hin
    view :=
      { i.view with
        writeCursor := hw
        wgray := hg
        wqRgray := hq.trans i.view.wqRgray
        ks_sorted := pairwise_cons_of_le i.view.ks_sorted (Nat.le_add_right _ _) }
    counts :=
      { dSeen_le := i.counts.dSeen_le
        read_le := i.counts.read_le
        kSeen_le := i.counts.kSeen_le.trans (Nat.le_add_right _ _)
        write_le := howes } }

/-- A move of CONS: its registers count to `D + k`, and what it owes is queued as far as it knows (R124, R128). -/
theorem AsyncInv.consMove (i : AsyncInv s h) {rd : ReadDomain}
    (hr : rd.readCursor = (h.D + k) % 2 ^ s.cfg.W) (hg : rd.rgray = grayOf s.cfg.W (h.D + k))
    (hq : rd.rqWgray = s.rd.rqWgray) (howes : h.D + k + (s.setRd rd).getOwes ≤ h.kSeen)
    (hget : (s.setRd rd).getLatched) : AsyncInv (s.setRd rd) { h with D := h.D + k } :=
  { legal := i.legal, block := i.block, life := i.life, put := i.put, get := hget, storage_wf := i.storage_wf
    storage_within := i.storage_within
    view :=
      { i.view with
        readCursor := hr
        rgray := hg
        rqWgray := hq.trans i.view.rqWgray
        ds_sorted := pairwise_cons_of_le i.view.ds_sorted (Nat.le_add_right _ _) }
    counts :=
      { dSeen_le := i.counts.dSeen_le.trans (Nat.le_add_right _ _)
        read_le := howes
        kSeen_le := i.counts.kSeen_le
        write_le := i.counts.write_le } }

/-- A SYNC step of W2R shows CONS a total between the one it knew and the present one (R126, R127). -/
theorem AsyncInv.syncW2R (i : AsyncInv s h) : AsyncInv s.syncW2R (h.afterAgent .sw2r s) := by
  obtain ⟨hge, hle⟩ := getLastD_shiftIn i.view.ks_sorted
  exact
    { legal := i.legal, block := i.block, life := i.life, put := i.put, get := i.get, storage_wf := i.storage_wf
      storage_within := i.storage_within
      view :=
        { i.view with
          rqWgray := by
            show shiftIn s.wd.wgray s.rd.rqWgray = _
            rw [i.view.wgray, i.view.rqWgray, shiftIn_map]
            rfl
          ks_length := (shiftIn_length ..).trans i.view.ks_length
          ks_sorted := pairwise_shiftIn i.view.ks_sorted }
      counts :=
        { dSeen_le := i.counts.dSeen_le
          read_le := i.counts.read_le.trans hge
          kSeen_le := hle
          write_le := i.counts.write_le } }

/-- A SYNC step of R2W shows PROD a total between the one it knew and the present one (R126, R127). -/
theorem AsyncInv.syncR2W (i : AsyncInv s h) : AsyncInv s.syncR2W (h.afterAgent .sr2w s) := by
  obtain ⟨hge, hle⟩ := getLastD_shiftIn i.view.ds_sorted
  exact
    { legal := i.legal, block := i.block, life := i.life, put := i.put, get := i.get, storage_wf := i.storage_wf
      storage_within := i.storage_within
      view :=
        { i.view with
          wqRgray := by
            show shiftIn s.rd.rgray s.wd.wqRgray = _
            rw [i.view.rgray, i.view.wqRgray, shiftIn_map]
            rfl
          ds_length := (shiftIn_length ..).trans i.view.ds_length
          ds_sorted := pairwise_shiftIn i.view.ds_sorted }
      counts :=
        { dSeen_le := hle
          read_le := i.counts.read_le
          kSeen_le := i.counts.kSeen_le
          write_le := i.counts.write_le.trans (Nat.add_le_add_right hge _) } }

/-- Nothing owed, what PROD has counted fits the free space it knows (R128). -/
theorem CountLaw.K_le (c : CountLaw s h) : h.K ≤ h.dSeen + s.cfg.C := Nat.le_of_add_right_le c.write_le

/-- Nothing owed, what CONS has counted is published as far as it knows (R128). -/
theorem CountLaw.D_le (c : CountLaw s h) : h.D ≤ h.kSeen := Nat.le_of_add_right_le c.read_le

/-! ### The phases of a PUT -/

/-- What PROD owes does not change its share of the invariant while its registers and storage stay. -/
theorem AsyncInv.prodKeep (i : AsyncInv s h) {wd : WriteDomain} (hw : wd.writeCursor = s.wd.writeCursor)
    (hg : wd.wgray = s.wd.wgray) (hq : wd.wqRgray = s.wd.wqRgray)
    (howes : h.K + (s.setWd wd).putOwes ≤ h.dSeen + s.cfg.C) (hput : (s.setWd wd).putLatched) :
    AsyncInv (s.setWd wd) h :=
  i.prodMove (k := 0) (m := s.storage) (hw.trans i.view.writeCursor) (hg.trans i.view.wgray) hq howes hput
    i.storage_wf i.storage_within

theorem AsyncInv.acceptPut (i : AsyncInv s h) (hn : n ≤ s.source.length) : AsyncInv (s.acceptPut n) h :=
  i.prodKeep rfl rfl rfl i.counts.K_le hn

/-- The count PROD samples is at most the free space it knows (R115, R128). -/
theorem AsyncInv.clampPut_rdSeen_le (i : AsyncInv s h) (req : Nat) :
    h.K + clampPut s.cfg.C s.cfg.W req s.wd.writeCursor s.rdSeen ≤ h.dSeen + s.cfg.C := by
  have hfree : clampPut s.cfg.C s.cfg.W req s.wd.writeCursor s.rdSeen ≤ s.cfg.C - (h.K - h.dSeen) :=
    i.cursorDist_rdSeen ▸ Nat.min_le_right _ _
  obtain ⟨h1, h2, h3, h4⟩ := i.counts.totals_le
  omega

/-- The count CONS samples is at most what is queued as far as it knows (R121, R128). -/
theorem AsyncInv.clampGet_wrSeen_le (i : AsyncInv s h) (req : Nat) :
    h.D + clampGet s.cfg.W req s.wrSeen s.rd.readCursor ≤ h.kSeen := by
  have hqueued : clampGet s.cfg.W req s.wrSeen s.rd.readCursor ≤ h.kSeen - h.D :=
    i.cursorDist_wrSeen ▸ clampGet_le ..
  obtain ⟨h1, h2, h3, h4⟩ := i.counts.totals_le
  omega

/-- Each step of PROD inside a PUT keeps the invariant (R114 to R118, R125). -/
theorem AsyncInv.prodStep (i : AsyncInv s h) : AsyncInv s.prodStep (h.afterAgent .prod s) := by
  have hput := i.put
  have howes := i.counts.write_le
  cases hp : s.wd.pPhase with
  | idle =>
    rw [prodStep_idle hp, History.afterAgent_prod_of_ne (by simp [hp])]
    exact i
  | sample =>
    simp only [State.putLatched, hp] at hput
    rw [prodStep_sample hp, History.afterAgent_prod_of_ne (by simp [hp])]
    refine i.prodKeep rfl rfl rfl (i.clampPut_rdSeen_le _) ⟨?_, clampPut_le .., rfl, rfl⟩
    exact List.length_take_of_le ((clampPut_le_req ..).trans hput)
  | copy =>
    simp only [State.putLatched, hp] at hput
    simp only [State.putOwes, hp] at howes
    obtain ⟨hlen, hC, hl1, hl2⟩ := hput
    rw [prodStep_copy hp, History.afterAgent_prod_of_ne (by simp [hp]), State.copyPut, hl1, hl2]
    exact i.prodMove (k := 0) i.view.writeCursor i.view.wgray rfl howes ⟨hlen, hC⟩
      (Memory.copyIn_wf i.storage_wf ..) (copyIn_segments_within (capOk_pos i.legal.1) i.storage_within hC)
  | barrier =>
    simp only [State.putLatched, hp] at hput
    simp only [State.putOwes, hp] at howes
    rw [prodStep_barrier hp, History.afterAgent_prod_of_ne (by simp [hp])]
    exact i.prodKeep rfl rfl rfl howes ⟨hput.1, hput.2, le_rfl⟩
  | advance =>
    simp only [State.putLatched, hp] at hput
    simp only [State.putOwes, hp] at howes
    obtain ⟨hlen, hC, hleft⟩ := hput
    obtain hzero | hpos := Nat.eq_zero_or_pos s.wd.pLeft
    · rw [prodStep_finish hp hzero, History.afterAgent_prod_finish hzero]
      exact i.prodKeep rfl rfl rfl i.counts.K_le ⟨hlen, hC⟩
    · rw [prodStep_adv1 hp hpos, History.afterAgent_prod_adv1 hp hpos]
      have hnext : adv s.cfg.W s.wd.writeCursor 1 = (h.K + 1) % 2 ^ s.cfg.W := by
        rw [i.view.writeCursor, adv_mod]
      have hstill : s.adv1Put.putOwes = s.wd.pLeft - 1 := by simp [State.putOwes, State.adv1Put, hp]
      refine i.prodMove (m := s.storage) hnext (congrArg bin2gray hnext) rfl ?_ ?_ i.storage_wf i.storage_within
      · show _ + s.adv1Put.putOwes ≤ _
        omega
      · simp only [State.putLatched, State.setWd_wd, hp]
        exact ⟨hlen, hC, (Nat.sub_le _ _).trans hleft⟩
  | done =>
    rw [prodStep_done hp, History.afterAgent_prod_of_ne (by simp [hp])]
    exact i.prodKeep rfl rfl rfl i.counts.K_le trivial

/-! ### The phases of a GET -/

/-- What CONS owes does not change its share of the invariant while its registers stay. -/
theorem AsyncInv.consKeep (i : AsyncInv s h) {rd : ReadDomain} (hr : rd.readCursor = s.rd.readCursor)
    (hg : rd.rgray = s.rd.rgray) (hq : rd.rqWgray = s.rd.rqWgray)
    (howes : h.D + (s.setRd rd).getOwes ≤ h.kSeen) (hget : (s.setRd rd).getLatched) : AsyncInv (s.setRd rd) h :=
  i.consMove (k := 0) (hr.trans i.view.readCursor) (hg.trans i.view.rgray) hq howes hget

theorem AsyncInv.acceptGet (i : AsyncInv s h) (n : Nat) : AsyncInv (s.acceptGet n) h :=
  i.consKeep rfl rfl rfl i.counts.D_le trivial

/-- Each step of CONS inside a GET keeps the invariant (R120 to R125). -/
theorem AsyncInv.consStep (i : AsyncInv s h) : AsyncInv s.consStep (h.afterAgent .cons s) := by
  have hget := i.get
  have howes := i.counts.read_le
  cases hp : s.rd.cPhase with
  | idle =>
    rw [consStep_idle hp, History.afterAgent_cons_of_ne (by simp [hp])]
    exact i
  | sample =>
    rw [consStep_sample hp, History.afterAgent_cons_of_ne (by simp [hp])]
    have hcount := i.clampGet_wrSeen_le s.rd.cReq
    obtain ⟨h1, h2, h3, h4⟩ := i.counts.totals_le
    have hC : clampGet s.cfg.W s.rd.cReq s.wrSeen s.rd.readCursor ≤ s.cfg.C := by omega
    exact i.consKeep rfl rfl rfl hcount ⟨hC, rfl, rfl⟩
  | copy =>
    simp only [State.getLatched, hp] at hget
    simp only [State.getOwes, hp] at howes
    obtain ⟨hC, hl1, hl2⟩ := hget
    rw [consStep_copy hp, History.afterAgent_cons_of_ne (by simp [hp]), State.copyGet, hl1, hl2]
    exact i.consKeep rfl rfl rfl howes ⟨copyOut_segments_length .., hC⟩
  | barrier =>
    simp only [State.getLatched, hp] at hget
    simp only [State.getOwes, hp] at howes
    rw [consStep_barrier hp, History.afterAgent_cons_of_ne (by simp [hp])]
    exact i.consKeep rfl rfl rfl howes ⟨hget.1, hget.2, le_rfl⟩
  | advance =>
    simp only [State.getLatched, hp] at hget
    simp only [State.getOwes, hp] at howes
    obtain ⟨hlen, hC, hleft⟩ := hget
    obtain hzero | hpos := Nat.eq_zero_or_pos s.rd.cLeft
    · rw [consStep_finish hp hzero, History.afterAgent_cons_finish hzero]
      exact i.consKeep rfl rfl rfl i.counts.D_le ⟨hlen, hC⟩
    · rw [consStep_adv1 hp hpos, History.afterAgent_cons_adv1 hp hpos]
      have hnext : adv s.cfg.W s.rd.readCursor 1 = (h.D + 1) % 2 ^ s.cfg.W := by
        rw [i.view.readCursor, adv_mod]
      have hstill : s.adv1Get.getOwes = s.rd.cLeft - 1 := by simp [State.getOwes, State.adv1Get, hp]
      refine i.consMove hnext (congrArg bin2gray hnext) rfl ?_ ?_
      · show _ + s.adv1Get.getOwes ≤ _
        omega
      · simp only [State.getLatched, State.setRd_rd, hp]
        exact ⟨hlen, hC, (Nat.sub_le _ _).trans hleft⟩
  | done =>
    rw [consStep_done hp, History.afterAgent_cons_of_ne (by simp [hp])]
    exact i.consKeep rfl rfl rfl i.counts.D_le trivial

end Moves

/-! ### A step -/

section AsyncSteps
variable {s t : State} {h : History}

/-- Taking a frame and letting the outputs fall does not matter to the invariant. -/
theorem AsyncInv.latchFrame (i : AsyncInv s h) : AsyncInv s.latchFrame h :=
  { i with
    view := { i.view with }
    counts := { i.counts with } }

/-- Each port's check is on its distance, the difference of the totals it knows (R128, R129). -/
theorem AsyncInv.checksOk (i : AsyncInv s h) : s.checksOk = true := by
  obtain ⟨h1, h2, h3, h4⟩ := i.counts.totals_le
  refine State.checksOk_iff.mpr ⟨?_, ?_⟩
  · rw [State.invOkW, State.producerView, i.block]
    exact invOk_iff.mpr (i.cursorDist_rdSeen.trans_le (by omega))
  · rw [State.invOkR, State.consumerView, i.block]
    exact invOk_iff.mpr (i.cursorDist_wrSeen.trans_le (by omega))

/-- The word on an idle producer port is a PNOP, or a PUT that is accepted. -/
theorem AsyncInv.producer_next (i : AsyncInv s h) (hp : s.wd.pPhase = .idle)
    (hexec : exec s.producerInstr s = .next t) :
    (s.producerInstr = .pnop ∧ t = s) ∨
      ∃ n, s.producerInstr = .put n ∧ n ≤ s.source.length ∧ t = s.acceptPut n := by
  have ho := (State.checksOk_iff.mp i.checksOk).1
  obtain hidle | ⟨n, hd, hn, hput⟩ := exec_producerInstr_next i.life hp ho hexec
  · exact .inl hidle
  · exact .inr ⟨n, hd, hn, by simpa [exec_put_async i.life hp ho i.block hn] using hput.symm⟩

/-- The word on an idle consumer port is a CNOP, or a GET that is accepted. -/
theorem AsyncInv.consumer_next (i : AsyncInv s h) (hp : s.rd.cPhase = .idle)
    (hexec : exec s.consumerInstr s = .next t) :
    (s.consumerInstr = .cnop ∧ t = s) ∨ ∃ n, s.consumerInstr = .get n ∧ t = s.acceptGet n := by
  have ho := (State.checksOk_iff.mp i.checksOk).2
  obtain hidle | ⟨n, hd, hget⟩ := exec_consumerInstr_next hexec
  · exact .inl hidle
  · exact .inr ⟨n, hd, by simpa [exec_get_async i.life hp ho i.block] using hget.symm⟩

/-- The step of a running `async_fifo` is one of the agent whose turn it is, on the latched state. -/
theorem AsyncInv.step_next (i : AsyncInv s h) (hstep : step s = .next t) :
    s.nextFrame.pins.rstN % 2 = 1 ∧ agentStep s.nextFrame.agent s.latchFrame = .next t := by
  obtain ⟨hr, -, ⟨hb, -⟩ | ⟨-, hagent⟩⟩ := step_running_next i.life hstep
  · simp [i.block] at hb
  · exact ⟨hr, hagent⟩

/-- Every agent's step keeps the invariant, with the totals moving as R127 says. -/
theorem AsyncInv.of_agentStep (i : AsyncInv s h) {a : Agent} (hstep : agentStep a s = .next t) :
    AsyncInv t (h.afterAgent a s) := by
  obtain ⟨rfl, rfl⟩ | ⟨rfl, hp, hexec⟩ | ⟨rfl, -, rfl⟩ | ⟨rfl, hp, hexec⟩ | ⟨rfl, -, rfl⟩ | ⟨rfl, rfl⟩ |
    ⟨rfl, rfl⟩ := agentStep_next hstep
  · exact i
  · rw [History.afterAgent_prod_of_ne (by simp [hp])]
    obtain ⟨-, rfl⟩ | ⟨n, -, hn, rfl⟩ := i.producer_next hp hexec
    · exact i
    · exact i.acceptPut hn
  · exact i.prodStep
  · rw [History.afterAgent_cons_of_ne (by simp [hp])]
    obtain ⟨-, rfl⟩ | ⟨n, -, rfl⟩ := i.consumer_next hp hexec
    · exact i
    · exact i.acceptGet n
  · exact i.consStep
  · exact i.syncW2R
  · exact i.syncR2W

/-- Every step keeps the invariant, with the totals moving as R127 says. -/
theorem AsyncInv.of_step (i : AsyncInv s h) (hstep : step s = .next t) : AsyncInv t (h.after s) := by
  obtain ⟨-, hagent⟩ := i.step_next hstep
  rw [History.after_eq_afterAgent]
  exact i.latchFrame.of_agentStep hagent

end AsyncSteps

/-- The invariant of a ring just constructed, with all totals 0 (R127). -/
theorem asyncInv_built {cfg : Config} (inputs : List Frame) (hcfg : LegalConfig cfg) (hb : cfg.block = .async) :
    AsyncInv (State.built cfg inputs) (History.start cfg.nSync) := by
  have hsorted : (0 :: List.replicate cfg.nSync 0).Pairwise (fun a b : Nat => b ≤ a) :=
    (List.pairwise_replicate (n := cfg.nSync + 1)).mpr (.inr le_rfl)
  have hlast := getLastD_replicate_zero cfg.nSync
  exact
    { legal := hcfg, block := hb, life := rfl, put := trivial, get := trivial
      storage_wf := List.Pairwise.nil
      storage_within := fun _ hc => absurd hc List.not_mem_nil
      view :=
        { writeCursor := (Nat.zero_mod _).symm
          readCursor := (Nat.zero_mod _).symm
          wgray := (grayOf_zero _).symm
          rgray := (grayOf_zero _).symm
          rqWgray := by simp [History.start, ReadDomain.reset]
          wqRgray := by simp [History.start, WriteDomain.reset]
          ks_length := List.length_replicate
          ds_length := List.length_replicate
          ks_sorted := hsorted
          ds_sorted := hsorted }
      counts :=
        { dSeen_le := hlast.le
          read_le := Nat.zero_le _
          kSeen_le := hlast.le
          write_le := Nat.zero_le _ } }

end Sys2Proof.Machine

/-! ## The FIFO law of `async_fifo`, step by step

The streams grow at SAMPLE of a PUT and at COPY of a GET, and storage at COPY of a PUT; every other step moves what is
owed (R131). -/

namespace Sys2Proof.Machine

theorem State.putStored_le_putOwes (s : State) : s.putStored ≤ s.putOwes := by
  cases hp : s.wd.pPhase <;> simp [State.putStored, State.putOwes, hp]

theorem State.getReadAhead_le_getOwes (s : State) : s.getReadAhead ≤ s.getOwes := by
  cases hp : s.rd.cPhase <;> simp [State.getReadAhead, State.getOwes, hp]

/-! ### When the streams grow -/

section Growth
variable {s t : State} (hb : s.cfg.block = .async)
include hb

theorem bytesTaken_of_not_sample (hp : s.wd.pPhase ≠ .sample) : bytesTaken s t = [] := by
  simp [bytesTaken, hb, hp]

theorem bytesTaken_of_pPhase_eq (hp : t.wd.pPhase = s.wd.pPhase) : bytesTaken s t = [] := by
  cases hs : s.wd.pPhase <;> simp [bytesTaken, hb, hp, hs]

theorem bytesRead_of_not_copy (hp : s.rd.cPhase ≠ .copy) : bytesRead s t = [] := by
  simp [bytesRead, hb, hp]

theorem bytesRead_of_cPhase_eq (hp : t.rd.cPhase = s.rd.cPhase) : bytesRead s t = [] := by
  cases hs : s.rd.cPhase <;> simp [bytesRead, hb, hp, hs]

end Growth

/-- A step that takes and reads no byte leaves the streams as they are. -/
theorem Streams.after_eq_self {s t : State} (g : Streams) (ht : bytesTaken s t = []) (hr : bytesRead s t = []) :
    g.after s t = g := by
  simp [Streams.after, ht, hr]

/-- A step that leaves both phases as they are leaves the streams as they are. -/
theorem Streams.after_of_phases_eq {s : State} (g : Streams) (t : State) (hb : s.cfg.block = .async)
    (hp : t.wd.pPhase = s.wd.pPhase) (hc : t.rd.cPhase = s.rd.cPhase) : g.after s t = g :=
  g.after_eq_self (bytesTaken_of_pPhase_eq hb hp) (bytesRead_of_cPhase_eq hb hc)

section AsyncFifoSteps
variable {s t : State} {g : Streams} {h : History} {k n : Nat}

/-! ### The steps of a PUT -/

/-- A move of PROD that leaves storage as it is, each count of `K` being one that was owed. -/
theorem AsyncFifo.prodMove (f : AsyncFifo s g h) {wd : WriteDomain} (howes : k + (s.setWd wd).putOwes = s.putOwes)
    (hstored : k + (s.setWd wd).putStored = s.putStored) (hp : wd.pPhase ≠ .copy) :
    AsyncFifo (s.setWd wd) g { h with K := h.K + k } :=
  { inOrder := f.inOrder
    accepted_length := by rw [f.accepted_length, ← howes, Nat.add_assoc]
    delivered_length := f.delivered_length
    stored := by rw [Nat.add_assoc, hstored]; exact f.stored
    copying := fun hcopy => absurd hcopy hp }

/-- SAMPLE of a PUT appends the bytes it takes to those accepted; they are the ones COPY is to store (R115, R131). -/
theorem AsyncFifo.samplePut (i : AsyncInv s h) (f : AsyncFifo s g h) (hp : s.wd.pPhase = .sample) :
    AsyncFifo s.samplePut (g.after s s.samplePut) h := by
  have hnext := i.prodStep.put
  rw [prodStep_sample hp] at hnext
  obtain ⟨hsrc, -⟩ : _ ∧ _ := hnext
  have hlen := f.accepted_length
  have hstored := f.stored
  simp only [State.putOwes, State.putStored, hp, Nat.add_zero] at hlen hstored
  have hgrow : g.after s s.samplePut = { g with accepted := g.accepted ++ s.samplePut.wd.pSrc } := by
    rw [Streams.after, bytesRead_of_cPhase_eq (t := s.samplePut) i.block rfl, List.append_nil]
    simp [bytesTaken, i.block, hp, State.samplePut]
  rw [hgrow]
  exact
    { inOrder := f.inOrder.trans (List.prefix_append _ _)
      accepted_length := by rw [List.length_append, hlen, hsrc]; rfl
      delivered_length := f.delivered_length
      stored := Memory.holds.append hstored hlen.ge _
      copying := fun _ => by rw [← hlen, List.drop_left] }

/-- COPY of a PUT stores the bytes that were taken, behind those stored before (R116, R131). -/
theorem AsyncFifo.copyPut (i : AsyncInv s h) (f : AsyncFifo s g h) (hp : s.wd.pPhase = .copy) :
    AsyncFifo s.copyPut g h := by
  have hput := i.put
  have howes := i.counts.write_le
  have hlen := f.accepted_length
  have hstored := f.stored
  simp only [State.putLatched, State.putOwes, State.putStored, hp, Nat.add_zero] at hput howes hlen hstored
  obtain ⟨hsrc, hC, hl1, hl2⟩ := hput
  obtain ⟨h1, h2, h3, -⟩ := i.counts.totals_le
  have hnext := Memory.holds.copyIn (src := s.wd.pSrc) i.legal.1 i.storage_wf hstored (by omega) (n := s.wd.pN)
    (by omega) hsrc.ge fun j _ => by rw [← f.copying hp, List.getElem?_drop]
  rw [← i.view.writeCursor, ← hl1, ← hl2] at hnext
  exact
    { inOrder := f.inOrder
      accepted_length := hlen
      delivered_length := f.delivered_length
      stored := hnext
      copying := fun hcopy => nomatch hcopy }

/-- Each step of PROD inside a PUT keeps the law. -/
theorem AsyncFifo.prodStep (i : AsyncInv s h) (f : AsyncFifo s g h) :
    AsyncFifo s.prodStep (g.after s s.prodStep) (h.afterAgent .prod s) := by
  have hread : bytesRead s s.prodStep = [] := by
    obtain ⟨m, wd, hframe⟩ := prodStep_frame s
    exact bytesRead_of_cPhase_eq i.block (by rw [hframe]; rfl)
  by_cases hp : s.wd.pPhase = .sample
  · rw [prodStep_sample hp, History.afterAgent_prod_of_ne (by simp [hp])]
    exact f.samplePut i hp
  rw [g.after_eq_self (bytesTaken_of_not_sample i.block hp) hread]
  cases hp : s.wd.pPhase with
  | idle =>
    rw [prodStep_idle hp, History.afterAgent_prod_of_ne (by simp [hp])]
    exact f
  | sample => contradiction
  | copy =>
    rw [prodStep_copy hp, History.afterAgent_prod_of_ne (by simp [hp])]
    exact f.copyPut i hp
  | barrier =>
    rw [prodStep_barrier hp, History.afterAgent_prod_of_ne (by simp [hp])]
    exact f.prodMove (k := 0) (by simp [State.putOwes, hp]) (by simp [State.putStored, hp]) nofun
  | advance =>
    obtain hzero | hpos := Nat.eq_zero_or_pos s.wd.pLeft
    · rw [prodStep_finish hp hzero, History.afterAgent_prod_finish hzero]
      exact f.prodMove (k := 0) (by simp [State.putOwes, hp, hzero]) (by simp [State.putStored, hp, hzero]) nofun
    · rw [prodStep_adv1 hp hpos, History.afterAgent_prod_adv1 hp hpos]
      exact f.prodMove (by simp [State.putOwes, hp]; omega) (by simp [State.putStored, hp]; omega) (by simp [hp])
  | done =>
    rw [prodStep_done hp, History.afterAgent_prod_of_ne (by simp [hp])]
    exact f.prodMove (k := 0) (by simp [State.putOwes, hp]) (by simp [State.putStored, hp]) nofun

/-! ### The steps of a GET -/

/-- A move of CONS, each count of `D` being of a byte read ahead. -/
theorem AsyncFifo.consMove (f : AsyncFifo s g h) {rd : ReadDomain}
    (hahead : k + (s.setRd rd).getReadAhead = s.getReadAhead) :
    AsyncFifo (s.setRd rd) g { h with D := h.D + k } :=
  { inOrder := f.inOrder
    accepted_length := f.accepted_length
    delivered_length := by rw [f.delivered_length, ← hahead, Nat.add_assoc]
    stored := Memory.holds.of_le f.stored (Nat.le_add_right _ _)
    copying := f.copying }

/-- The positions a GET in its COPY reads are queued (R129). -/
theorem AsyncInv.copy_le (i : AsyncInv s h) (hp : s.rd.cPhase = .copy) : h.D + s.rd.cN ≤ h.K := by
  have howes := i.counts.read_le
  simp only [State.getOwes, hp] at howes
  exact howes.trans i.counts.kSeen_le

/-- COPY of a GET reads the bytes of the stream that come after those read before (R122, R131). -/
theorem AsyncFifo.copyGet (i : AsyncInv s h) (f : AsyncFifo s g h) (hp : s.rd.cPhase = .copy) :
    AsyncFifo s.copyGet (g.after s s.copyGet) h := by
  have hget := i.get
  have hlen := f.delivered_length
  simp only [State.getLatched, State.getReadAhead, hp, Nat.add_zero] at hget hlen
  obtain ⟨hC, hl1, hl2⟩ := hget
  have hqueued := i.copy_le hp
  have hall : h.K + s.putStored ≤ g.accepted.length :=
    f.accepted_length ▸ Nat.add_le_add_left s.putStored_le_putOwes _
  have hread := Memory.holds.copyOut (draw := s.draw) i.legal.1 f.stored hall (n := s.rd.cN) (by omega) hC
  rw [← i.view.readCursor, ← hl1, ← hl2] at hread
  have hgrow : g.after s s.copyGet =
      { g with delivered := g.delivered ++ (g.accepted.drop g.delivered.length).take s.rd.cN } := by
    rw [Streams.after, bytesTaken_of_pPhase_eq (t := s.copyGet) i.block rfl, List.append_nil, hlen, ← hread]
    simp [bytesRead, i.block, hp, State.copyGet]
  rw [hgrow]
  exact
    { inOrder := prefix_append_take_drop f.inOrder _
      accepted_length := f.accepted_length
      delivered_length := by
        rw [List.length_append, List.length_take_of_le (by rw [List.length_drop]; omega), hlen]
        rfl
      stored := f.stored
      copying := f.copying }

/-- Each step of CONS inside a GET keeps the law. -/
theorem AsyncFifo.consStep (i : AsyncInv s h) (f : AsyncFifo s g h) :
    AsyncFifo s.consStep (g.after s s.consStep) (h.afterAgent .cons s) := by
  have htaken : bytesTaken s s.consStep = [] := by
    obtain ⟨rd, hframe⟩ := consStep_frame s
    exact bytesTaken_of_pPhase_eq i.block (by rw [hframe]; rfl)
  by_cases hp : s.rd.cPhase = .copy
  · rw [consStep_copy hp, History.afterAgent_cons_of_ne (by simp [hp])]
    exact f.copyGet i hp
  rw [Streams.after_eq_self g htaken (bytesRead_of_not_copy i.block hp)]
  cases hp : s.rd.cPhase with
  | idle =>
    rw [consStep_idle hp, History.afterAgent_cons_of_ne (by simp [hp])]
    exact f
  | sample =>
    rw [consStep_sample hp, History.afterAgent_cons_of_ne (by simp [hp])]
    exact f.consMove (k := 0) (by simp [State.getReadAhead, hp])
  | copy => contradiction
  | barrier =>
    rw [consStep_barrier hp, History.afterAgent_cons_of_ne (by simp [hp])]
    exact f.consMove (k := 0) (by simp [State.getReadAhead, hp])
  | advance =>
    obtain hzero | hpos := Nat.eq_zero_or_pos s.rd.cLeft
    · rw [consStep_finish hp hzero, History.afterAgent_cons_finish hzero]
      exact f.consMove (k := 0) (by simp [State.getReadAhead, hp, hzero])
    · rw [consStep_adv1 hp hpos, History.afterAgent_cons_adv1 hp hpos]
      exact f.consMove (by simp [State.getReadAhead, hp]; omega)
  | done =>
    rw [consStep_done hp, History.afterAgent_cons_of_ne (by simp [hp])]
    exact f.consMove (k := 0) (by simp [State.getReadAhead, hp])

/-! ### A step -/

/-- Taking a frame does not matter to the law. -/
theorem AsyncFifo.latchFrame (f : AsyncFifo s g h) : AsyncFifo s.latchFrame g h :=
  ⟨f.inOrder, f.accepted_length, f.delivered_length, f.stored, f.copying⟩

/-- Every agent's step keeps the law. -/
theorem AsyncFifo.of_agentStep (i : AsyncInv s h) (f : AsyncFifo s g h) {a : Agent} (hstep : agentStep a s = .next t) :
    AsyncFifo t (g.after s t) (h.afterAgent a s) := by
  have hself : g.after s s = g := g.after_of_phases_eq s i.block rfl rfl
  obtain ⟨rfl, rfl⟩ | ⟨rfl, hp, hexec⟩ | ⟨rfl, -, rfl⟩ | ⟨rfl, hp, hexec⟩ | ⟨rfl, -, rfl⟩ | ⟨rfl, rfl⟩ |
    ⟨rfl, rfl⟩ := agentStep_next hstep
  · rwa [hself]
  · rw [History.afterAgent_prod_of_ne (by simp [hp])]
    obtain ⟨-, rfl⟩ | ⟨n, -, hn, rfl⟩ := i.producer_next hp hexec
    · rwa [hself]
    · rw [g.after_eq_self (t := s.acceptPut n) (bytesTaken_of_not_sample i.block (by simp [hp]))
        (bytesRead_of_cPhase_eq i.block rfl)]
      exact f.prodMove (k := 0) (by simp [State.putOwes, hp]) (by simp [State.putStored, hp]) nofun
  · exact f.prodStep i
  · rw [History.afterAgent_cons_of_ne (by simp [hp])]
    obtain ⟨-, rfl⟩ | ⟨n, -, rfl⟩ := i.consumer_next hp hexec
    · rwa [hself]
    · rw [g.after_eq_self (t := s.acceptGet n) (bytesTaken_of_pPhase_eq i.block rfl)
        (bytesRead_of_not_copy i.block (by simp [hp]))]
      exact f.consMove (k := 0) (by simp [State.getReadAhead, hp])
  · exact f.consStep i
  · rw [g.after_of_phases_eq s.syncW2R i.block rfl rfl]
    exact ⟨f.inOrder, f.accepted_length, f.delivered_length, f.stored, f.copying⟩
  · rw [g.after_of_phases_eq s.syncR2W i.block rfl rfl]
    exact ⟨f.inOrder, f.accepted_length, f.delivered_length, f.stored, f.copying⟩

/-- Every step keeps the law, with the streams growing by the bytes taken and read. -/
theorem AsyncFifo.of_step (i : AsyncInv s h) (f : AsyncFifo s g h) (hstep : step s = .next t) :
    AsyncFifo t (g.after s t) (h.after s) := by
  obtain ⟨-, hagent⟩ := i.step_next hstep
  rw [History.after_eq_afterAgent]
  exact f.latchFrame.of_agentStep i.latchFrame hagent

end AsyncFifoSteps

/-- The law of a ring just constructed, with empty streams and all totals 0. -/
theorem asyncFifo_built (cfg : Config) (inputs : List Frame) :
    AsyncFifo (State.built cfg inputs) { accepted := [], delivered := [] } (History.start cfg.nSync) :=
  { inOrder := List.prefix_rfl
    accepted_length := rfl
    delivered_length := rfl
    stored := fun k _ hk => absurd hk (Nat.not_lt_zero k)
    copying := fun hcopy => nomatch hcopy }

end Sys2Proof.Machine

/-! ## Stored bytes and the streams

That every position queued holds a stored byte says that there are streams of which the FIFO law holds, so the steps
keep the one because they keep the other (R107, R106, R131). -/

namespace Sys2Proof.Machine

/-- Values that are all there make a list. -/
theorem exists_list_of_isSome {α : Type} {f : Nat → Option α} {n : Nat} (hf : ∀ j, j < n → (f j).isSome = true) :
    ∃ l : List α, l.length = n ∧ ∀ j, j < n → l[j]? = f j :=
  ⟨List.ofFn fun j : Fin n => (f j).get (hf j j.isLt), List.length_ofFn, fun j hj => by simp [hj]⟩

section StoredBytes
variable {C W n lo hi : Nat} {m : Memory} {bytes : List Byte}

/-- Stored bytes from position `lo` on are those of a stream with any `lo` bytes before them. -/
theorem exists_holds_of_isSome
    (hstored : ∀ j, j < n → (m.stored? (index C ((lo % 2 ^ W + j) % 2 ^ W))).isSome = true) :
    ∃ bytes : List Byte, bytes.length = lo + n ∧ m.holds C W bytes lo (lo + n) := by
  obtain ⟨l, hlen, hl⟩ := exists_list_of_isSome hstored
  refine ⟨List.replicate lo 0 ++ l, by simp [hlen], fun k hlo hhi => ?_⟩
  obtain ⟨j, rfl⟩ := Nat.exists_eq_add_of_le hlo
  rw [List.getElem?_append_right (by simp), List.length_replicate, Nat.add_sub_cancel_left, hl j (by omega),
    Nat.mod_add_mod]

/-- A range that holds the bytes of a stream holds stored bytes. -/
theorem Memory.holds.isSome (h : m.holds C W bytes lo hi) (hle : hi ≤ bytes.length) {j : Nat} (hj : lo + j < hi) :
    (m.stored? (index C ((lo % 2 ^ W + j) % 2 ^ W))).isSome = true := by
  rw [Nat.mod_add_mod, h _ (Nat.le_add_right _ _) hj, List.getElem?_eq_getElem (hj.trans_le hle), Option.isSome_some]

end StoredBytes

section QueuedStored
variable {s t : State} {h : History}

/-- In `sync_fifo` no PUT is ever between its copy and its advance. -/
theorem SyncInv.putStored_eq (i : SyncInv s) : s.putStored = 0 := by simp [State.putStored, i.pPhase]

theorem SyncInv.queuedStored_iff (i : SyncInv s) : QueuedStored s ↔ ∃ g, SyncFifo s g := by
  have hrmod := Nat.mod_eq_of_lt (fitsIn_iff.mp i.readCursor_fits)
  constructor
  · intro hq
    rw [QueuedStored, i.putStored_eq, Nat.add_zero, ← hrmod] at hq
    obtain ⟨bytes, hlen, hholds⟩ := exists_holds_of_isSome hq
    rw [hrmod] at hlen hholds
    have hread : (bytes.take s.rd.readCursor).length = s.rd.readCursor := List.length_take_of_le (by omega)
    refine ⟨{ accepted := bytes, delivered := bytes.take s.rd.readCursor },
      SyncFifo.of_cursors (List.take_prefix _ _) ?_ ?_ ?_ ?_⟩
    · rw [hlen]
      exact adv_cursorDist (fitsIn_iff.mp i.writeCursor_fits) (fitsIn_iff.mp i.readCursor_fits)
    · rw [hread, hrmod]
    · rw [hread, hlen, Nat.add_sub_cancel_left]
      exact cursorDist_lt ..
    · rw [hread, hlen]
      exact hholds
  · rintro ⟨g, f⟩ j hj
    rw [i.putStored_eq, Nat.add_zero, ← f.difference] at hj
    rw [← f.readCursor]
    exact Memory.holds.isSome f.stored le_rfl (by omega)

/-- The bytes a PUT has taken at its SAMPLE and not yet stored. -/
def State.putPending (s : State) : List Byte := if s.wd.pPhase = .copy then s.wd.pSrc else []

/-- What a PUT owes is stored, or is still to be (R116, R118). -/
theorem AsyncInv.putOwes_eq (i : AsyncInv s h) : s.putOwes = s.putStored + s.putPending.length := by
  have hput := i.put
  cases hp : s.wd.pPhase <;> simp only [State.putLatched, hp] at hput <;>
    simp [State.putOwes, State.putStored, State.putPending, hp, hput]

theorem AsyncInv.queuedStored_iff (i : AsyncInv s h) : QueuedStored s ↔ ∃ g, AsyncFifo s g h := by
  obtain ⟨h1, h2, h3, -⟩ := i.counts.totals_le
  constructor
  · intro hq
    rw [QueuedStored, i.cursorDist_cursors, i.view.readCursor] at hq
    obtain ⟨bytes, hlen, hholds⟩ := exists_holds_of_isSome hq
    rw [show h.D + (h.K - h.D + s.putStored) = h.K + s.putStored by omega] at hlen hholds
    have hahead := (Nat.add_le_add_left s.getReadAhead_le_getOwes h.D).trans i.counts.read_le
    have hall : (bytes ++ s.putPending).length = h.K + s.putOwes := by
      rw [List.length_append, hlen, i.putOwes_eq, Nat.add_assoc]
    refine ⟨{ accepted := bytes ++ s.putPending, delivered := (bytes ++ s.putPending).take (h.D + s.getReadAhead) },
      ?_⟩
    exact
      { inOrder := List.take_prefix _ _
        accepted_length := hall
        delivered_length := List.length_take_of_le (by omega)
        stored := hholds.append hlen.ge _
        copying := fun hp => by
          have hK : bytes.length = h.K := by simpa [State.putStored, hp] using hlen
          show (bytes ++ s.putPending).drop h.K = _
          rw [← hK, List.drop_left, State.putPending, if_pos hp] }
  · rintro ⟨g, f⟩ j hj
    rw [i.cursorDist_cursors] at hj
    rw [i.view.readCursor]
    exact Memory.holds.isSome f.stored (f.accepted_length ▸ Nat.add_le_add_left s.putStored_le_putOwes _) (by omega)

/-- The steps of `sync_fifo` keep the queued bytes stored. -/
theorem SyncInv.queuedStored_step (i : SyncInv s) (hq : QueuedStored s) (hstep : step s = .next t) :
    QueuedStored t := by
  obtain ⟨g, f⟩ := i.queuedStored_iff.mp hq
  exact (syncStepsKeepTheInvariant s t i hstep).queuedStored_iff.mpr ⟨_, f.of_step i hstep⟩

/-- The steps of `async_fifo` keep the queued bytes stored. -/
theorem AsyncInv.queuedStored_step (i : AsyncInv s h) (hq : QueuedStored s) (hstep : step s = .next t) :
    QueuedStored t := by
  obtain ⟨g, f⟩ := i.queuedStored_iff.mp hq
  exact (i.of_step hstep).queuedStored_iff.mpr ⟨_, f.of_step i hstep⟩

end QueuedStored

end Sys2Proof.Machine

/-! ## The draw of the unspecified contents

A step reads storage only where a GET copies, and there every cell holds a stored byte (R107, R157). -/

namespace Sys2Proof.Machine

/-- The state with another draw of the unspecified contents of storage. -/
def State.withDraw (s : State) (draw : Nat) : State := { s with draw := draw }

section Draw
variable {s t : State} {h : History}

@[simp] theorem State.withDraw_wd (s : State) (draw : Nat) : (s.withDraw draw).wd = s.wd := rfl

@[simp] theorem State.withDraw_rd (s : State) (draw : Nat) : (s.withDraw draw).rd = s.rd := rfl

@[simp] theorem State.withDraw_producerInstr (s : State) (draw : Nat) :
    (s.withDraw draw).producerInstr = s.producerInstr := rfl

@[simp] theorem State.withDraw_consumerInstr (s : State) (draw : Nat) :
    (s.withDraw draw).consumerInstr = s.consumerInstr := rfl

theorem State.withDraw_latchFrame (s : State) (draw : Nat) :
    (s.withDraw draw).latchFrame = s.latchFrame.withDraw draw := rfl

/-! ### `sync_fifo` -/

theorem SyncInv.withDraw (i : SyncInv s) (draw : Nat) : SyncInv (s.withDraw draw) := { i with }

/-- A GET reads queued cells only. -/
theorem SyncInv.getAtomic_withDraw (i : SyncInv s) (hq : QueuedStored s) (draw n : Nat) :
    (s.withDraw draw).getAtomic n = (s.getAtomic n).withDraw draw := by
  have hcore := getCore_draw_eq (req := n) i.legal.1 i.distance
    (fun j hj => hq j (hj.trans_le (Nat.le_add_right _ _))) s.draw draw
  rw [(s.withDraw draw).getAtomic_eq hcore]
  rfl

theorem SyncInv.exec_producer_withDraw (i : SyncInv s) (draw : Nat) (hexec : exec s.producerInstr s = .next t) :
    exec s.producerInstr (s.withDraw draw) = .next (t.withDraw draw) := by
  obtain ⟨hd, rfl⟩ | ⟨n, hd, hn, rfl⟩ := i.producer_next hexec
  · rw [hd, exec_pnop]
  · rw [hd, (i.withDraw draw).exec_put hn]
    rfl

theorem SyncInv.exec_consumer_withDraw (i : SyncInv s) (hq : QueuedStored s) (draw : Nat)
    (hexec : exec s.consumerInstr s = .next t) :
    exec s.consumerInstr (s.withDraw draw) = .next (t.withDraw draw) := by
  obtain ⟨hd, rfl⟩ | ⟨n, hd, rfl⟩ := i.consumer_next hexec
  · rw [hd, exec_cnop]
  · rw [hd, (i.withDraw draw).exec_get, i.getAtomic_withDraw hq]

/-- No step of `sync_fifo` depends on the draw. -/
theorem SyncInv.step_withDraw (i : SyncInv s) (hq : QueuedStored s) (draw : Nat) (hstep : step s = .next t) :
    step (s.withDraw draw) = .next (t.withDraw draw) := by
  obtain ⟨hr, hboth⟩ := i.step_next hstep
  obtain ⟨sp, sc, hp, hc, rfl⟩ := joinPorts_next hboth
  rw [(i.withDraw draw).step_eq hr, State.withDraw_latchFrame, bothPorts, State.withDraw_producerInstr,
    State.withDraw_consumerInstr, i.latchFrame.exec_producer_withDraw draw hp,
    i.latchFrame.exec_consumer_withDraw hq draw hc]
  rfl

/-! ### `async_fifo` -/

theorem AsyncInv.withDraw (i : AsyncInv s h) (draw : Nat) : AsyncInv (s.withDraw draw) h :=
  { i with
    view := { i.view with }
    counts := { i.counts with } }

/-- No step of PROD reads storage. -/
theorem State.prodStep_withDraw (s : State) (draw : Nat) : (s.withDraw draw).prodStep = s.prodStep.withDraw draw := by
  unfold State.prodStep
  rw [State.withDraw_wd]
  split
  · rfl
  · rfl
  · rfl
  · rfl
  · exact (apply_ite (State.withDraw · draw) (0 < s.wd.pLeft) s.adv1Put s.finishPut).symm
  · rfl

/-- CONS reads storage in COPY, where it reads queued cells only. -/
theorem AsyncInv.consStep_withDraw (i : AsyncInv s h) (hq : QueuedStored s) (draw : Nat) :
    (s.withDraw draw).consStep = s.consStep.withDraw draw := by
  by_cases hp : s.rd.cPhase = .copy
  · have hget := i.get
    simp only [State.getLatched, hp] at hget
    obtain ⟨hC, hl1, hl2⟩ := hget
    have hqueued := i.copy_le hp
    have hout := copyOut_draw_eq (draw := s.draw) i.legal.1 hC
      (fun j hj => hq j (by rw [i.cursorDist_cursors]; omega)) draw
    rw [← hl1, ← hl2] at hout
    rw [consStep_copy hp, consStep_copy (s := s.withDraw draw) hp]
    exact congrArg (fun out => (s.setRd { s.rd with cPhase := .barrier, cOut := out }).withDraw draw) hout
  · unfold State.consStep
    rw [State.withDraw_rd]
    split
    · rfl
    · rfl
    · contradiction
    · rfl
    · exact (apply_ite (State.withDraw · draw) (0 < s.rd.cLeft) s.adv1Get s.finishGet).symm
    · rfl

/-- No agent's step depends on the draw. -/
theorem AsyncInv.agentStep_withDraw (i : AsyncInv s h) (hq : QueuedStored s) (draw : Nat) {a : Agent}
    (hstep : agentStep a s = .next t) : agentStep a (s.withDraw draw) = .next (t.withDraw draw) := by
  have ho := State.checksOk_iff.mp (i.withDraw draw).checksOk
  obtain ⟨rfl, rfl⟩ | ⟨rfl, hp, hexec⟩ | ⟨rfl, hp, rfl⟩ | ⟨rfl, hp, hexec⟩ | ⟨rfl, hp, rfl⟩ | ⟨rfl, rfl⟩ |
    ⟨rfl, rfl⟩ := agentStep_next hstep
  · rfl
  · rw [agentStep, State.withDraw_wd, if_pos hp, State.withDraw_producerInstr]
    obtain ⟨hd, rfl⟩ | ⟨n, hd, hn, rfl⟩ := i.producer_next hp hexec
    · rw [hd, exec_pnop]
    · rw [hd, exec_put_async (s := s.withDraw draw) i.life hp ho.1 i.block hn]
      rfl
  · rw [agentStep, State.withDraw_wd, if_neg hp, s.prodStep_withDraw]
  · rw [agentStep, State.withDraw_rd, if_pos hp, State.withDraw_consumerInstr]
    obtain ⟨hd, rfl⟩ | ⟨n, hd, rfl⟩ := i.consumer_next hp hexec
    · rw [hd, exec_cnop]
    · rw [hd, exec_get_async (s := s.withDraw draw) i.life hp ho.2 i.block]
      rfl
  · rw [agentStep, State.withDraw_rd, if_neg hp, i.consStep_withDraw hq]
  · rfl
  · rfl

/-- No step of `async_fifo` depends on the draw. -/
theorem AsyncInv.step_withDraw (i : AsyncInv s h) (hq : QueuedStored s) (draw : Nat) (hstep : step s = .next t) :
    step (s.withDraw draw) = .next (t.withDraw draw) := by
  obtain ⟨hr, hagent⟩ := i.step_next hstep
  have id := i.withDraw draw
  rw [step_eq_agentStep id.life hr id.checksOk id.block, State.withDraw_latchFrame]
  exact i.latchFrame.agentStep_withDraw hq draw hagent

end Draw

/-- Settles O32: nothing is queued at construction, and both invariants hand the claim on. -/
theorem unwrittenBytesNeverInfluenceAStep : Obligations.UnwrittenBytesNeverInfluenceAStep := by
  refine ⟨fun cfg inputs j hj => ?_, fun s t hinv hq hstep => ?_⟩
  · have hnone : cursorDist cfg.W 0 0 = 0 := cursorDist_self _ _
    have hj : j < cursorDist cfg.W 0 0 := hj
    omega
  · obtain i | ⟨h, i⟩ := hinv
    · exact ⟨i.queuedStored_step hq hstep, fun draw => i.step_withDraw hq draw hstep⟩
    · exact ⟨i.queuedStored_step hq hstep, fun draw => i.step_withDraw hq draw hstep⟩

end Sys2Proof.Machine

/-! ## Runs

What holds at construction and is kept by every step holds along every run. -/

namespace Sys2Proof.Machine

section Runs
variable {cfg : Config} {inputs : List Frame} {s : State} {g : Streams} {h : History}

theorem Reachable.cfg_eq (r : Reachable cfg inputs s g h) : s.cfg = cfg := by
  induction r with
  | built => rfl
  | step _ hstep ih => exact (step_cfg hstep).trans ih

theorem Reachable.sync (r : Reachable cfg inputs s g h) (hcfg : LegalConfig cfg) (hb : cfg.block = .sync) :
    SyncInv s ∧ SyncFifo s g := by
  induction r with
  | built => exact ⟨syncInvariantHoldsAfterReset cfg inputs hcfg hb, syncFifo_built cfg inputs⟩
  | step _ hstep ih =>
    obtain ⟨i, f⟩ := ih
    exact ⟨syncStepsKeepTheInvariant _ _ i hstep, f.of_step i hstep⟩

theorem Reachable.async (r : Reachable cfg inputs s g h) (hcfg : LegalConfig cfg) (hb : cfg.block = .async) :
    AsyncInv s h ∧ AsyncFifo s g h := by
  induction r with
  | built => exact ⟨asyncInv_built inputs hcfg hb, asyncFifo_built cfg inputs⟩
  | step _ hstep ih =>
    obtain ⟨i, f⟩ := ih
    exact ⟨i.of_step hstep, f.of_step i hstep⟩

end Runs

/-- Settles O59: along a run of either block its invariant and its FIFO law hold, and with them every queued byte is
stored. -/
theorem fifoLawsAlongEveryRun : Obligations.FifoLawsAlongEveryRun := by
  intro cfg inputs s g h hcfg r
  obtain rfl := r.cfg_eq
  cases hb : s.cfg.block with
  | sync =>
    obtain ⟨i, f⟩ := r.sync hcfg hb
    exact ⟨f.inOrder, fun _ => ⟨f.writeCursor, f.readCursor, f.difference, f.stored⟩, nofun,
      fun t draw hstep => i.step_withDraw (i.queuedStored_iff.mpr ⟨g, f⟩) draw hstep⟩
  | async =>
    obtain ⟨i, f⟩ := r.async hcfg hb
    exact ⟨f.inOrder, nofun,
      fun _ => ⟨i, f.accepted_length, f.delivered_length,
        fun k hlo hhi => f.stored k hlo (hhi.trans_le (Nat.le_add_right _ _))⟩,
      fun t draw hstep => i.step_withDraw (i.queuedStored_iff.mpr ⟨g, f⟩) draw hstep⟩

end Sys2Proof.Machine

/-! ## The agents of `async_fifo`

A step is the agent's move on the latched state, or it accepts the word on the agent's idle port. What each move leaves
as it is says who writes what (R110, R111). -/

namespace Sys2Proof.Machine

section AgentFrames
variable {s t : State} {a : Agent}

@[simp] theorem prodStep_cfg (s : State) : s.prodStep.cfg = s.cfg := by
  obtain ⟨m, wd, hframe⟩ := prodStep_frame s
  rw [hframe]; rfl

@[simp] theorem prodStep_draw (s : State) : s.prodStep.draw = s.draw := by
  obtain ⟨m, wd, hframe⟩ := prodStep_frame s
  rw [hframe]; rfl

@[simp] theorem prodStep_rd (s : State) : s.prodStep.rd = s.rd := by
  obtain ⟨m, wd, hframe⟩ := prodStep_frame s
  rw [hframe]; rfl

@[simp] theorem prodStep_inputs (s : State) : s.prodStep.inputs = s.inputs := by
  obtain ⟨m, wd, hframe⟩ := prodStep_frame s
  rw [hframe]; rfl

@[simp] theorem consStep_cfg (s : State) : s.consStep.cfg = s.cfg := by
  obtain ⟨rd, hframe⟩ := consStep_frame s
  rw [hframe]; rfl

@[simp] theorem consStep_draw (s : State) : s.consStep.draw = s.draw := by
  obtain ⟨rd, hframe⟩ := consStep_frame s
  rw [hframe]; rfl

@[simp] theorem consStep_storage (s : State) : s.consStep.storage = s.storage := by
  obtain ⟨rd, hframe⟩ := consStep_frame s
  rw [hframe]; rfl

@[simp] theorem consStep_wd (s : State) : s.consStep.wd = s.wd := by
  obtain ⟨rd, hframe⟩ := consStep_frame s
  rw [hframe]; rfl

@[simp] theorem consStep_inputs (s : State) : s.consStep.inputs = s.inputs := by
  obtain ⟨rd, hframe⟩ := consStep_frame s
  rw [hframe]; rfl

/-- PROD does not write the stages of R2W (R111). -/
@[simp] theorem prodStep_wqRgray (s : State) : s.prodStep.wd.wqRgray = s.wd.wqRgray := by
  unfold State.prodStep
  split
  case h_5 => split <;> rfl
  all_goals rfl

/-- CONS does not write the stages of W2R (R111). -/
@[simp] theorem consStep_rqWgray (s : State) : s.consStep.rd.rqWgray = s.rd.rqWgray := by
  unfold State.consStep
  split
  case h_5 => split <;> rfl
  all_goals rfl

/-- PROD writes storage in COPY only (R116). -/
theorem prodStep_storage_of_ne (hp : s.wd.pPhase ≠ .copy) : s.prodStep.storage = s.storage := by
  unfold State.prodStep
  split
  case h_3 => contradiction
  case h_5 => split <;> rfl
  all_goals rfl

@[simp] theorem Agent.move_draw (a : Agent) (s : State) : (a.move s).draw = s.draw := by
  cases a <;> simp [Agent.move, State.syncW2R, State.syncR2W]

/-- Only PROD moves storage and the registers of the write domain but for the stages of R2W (R111). -/
theorem Agent.move_write_side (ha : a ≠ .prod) :
    (a.move s).storage = s.storage ∧ (a.move s).wd = { s.wd with wqRgray := (a.move s).wd.wqRgray } := by
  cases a with
  | prod => contradiction
  | cons => simp [Agent.move]
  | host | sw2r | sr2w => exact ⟨rfl, rfl⟩

/-- Only CONS moves the registers of the read domain but for the stages of W2R (R111). -/
theorem Agent.move_read_side (ha : a ≠ .cons) :
    (a.move s).rd = { s.rd with rqWgray := (a.move s).rd.rqWgray } := by
  cases a with
  | cons => contradiction
  | prod => simp [Agent.move]
  | host | sw2r | sr2w => rfl

/-- Only R2W moves its stages (R111, R126). -/
theorem Agent.move_wqRgray (ha : a ≠ .sr2w) : (a.move s).wd.wqRgray = s.wd.wqRgray := by
  cases a with
  | sr2w => contradiction
  | prod | cons => simp [Agent.move]
  | host | sw2r => rfl

/-- Only W2R moves its stages (R111, R126). -/
theorem Agent.move_rqWgray (ha : a ≠ .sw2r) : (a.move s).rd.rqWgray = s.rd.rqWgray := by
  cases a with
  | sw2r => contradiction
  | prod | cons => simp [Agent.move]
  | host | sr2w => rfl

/-- A step of `async_fifo` is the agent's move, where an idle port moves nothing, or the step ACCEPT of the word on an
idle port (R110, R112). -/
theorem agentStep_async_next (hb : s.cfg.block = .async) (h : agentStep a s = .next t) :
    t = a.move s ∨
    (a = .prod ∧ s.wd.pPhase = .idle ∧ ∃ n, s.producerInstr = .put n ∧ n ≤ s.source.length ∧ t = s.acceptPut n) ∨
    (a = .cons ∧ s.rd.cPhase = .idle ∧ ∃ n, s.consumerInstr = .get n ∧ t = s.acceptGet n) := by
  obtain ⟨rfl, rfl⟩ | ⟨rfl, hp, hexec⟩ | ⟨rfl, -, rfl⟩ | ⟨rfl, hp, hexec⟩ | ⟨rfl, -, rfl⟩ | ⟨rfl, rfl⟩ |
    ⟨rfl, rfl⟩ := agentStep_next h
  · exact .inl rfl
  · obtain ⟨-, hd⟩ | ⟨-, hd⟩ := decodeP_cases s.cfg.W s.pins.pCmd <;> rw [State.producerInstr, hd] at hexec
    · obtain rfl | ⟨-, -, -, hn, ⟨hsync, -⟩ | ⟨-, rfl⟩⟩ := execPut_next hexec
      · exact .inl (prodStep_idle hp).symm
      · simp [hb] at hsync
      · exact .inr (.inl ⟨rfl, hp, _, hd, hn, rfl⟩)
    · obtain rfl : s = t := by simpa using hexec
      exact .inl (prodStep_idle hp).symm
  · exact .inl rfl
  · obtain ⟨-, hd⟩ | ⟨-, hd⟩ := decodeC_cases s.cfg.W s.pins.cCmd <;> rw [State.consumerInstr, hd] at hexec
    · obtain rfl | ⟨-, -, -, ⟨hsync, -⟩ | ⟨-, rfl⟩⟩ := execGet_next hexec
      · exact .inl (consStep_idle hp).symm
      · simp [hb] at hsync
      · exact .inr (.inr ⟨rfl, hp, _, hd, rfl⟩)
    · obtain rfl : s = t := by simpa using hexec
      exact .inl (consStep_idle hp).symm
  · exact .inl rfl
  · exact .inl rfl
  · exact .inl rfl

/-- The step of a running `async_fifo`: a move on the latched state, or ACCEPT of a PUT or GET. -/
theorem step_async_next (hb : s.cfg.block = .async) (hl : s.life = .running) (h : step s = .next t) :
    t = s.nextFrame.agent.move s.latchFrame ∨
    (s.nextFrame.agent = .prod ∧ s.wd.pPhase = .idle ∧
      ∃ n, decodeP s.cfg.W s.nextFrame.pins.pCmd = .put n ∧ n ≤ s.nextFrame.pins.pData.length ∧
        t = s.latchFrame.acceptPut n) ∨
    (s.nextFrame.agent = .cons ∧ s.rd.cPhase = .idle ∧
      ∃ n, decodeC s.cfg.W s.nextFrame.pins.cCmd = .get n ∧ t = s.latchFrame.acceptGet n) := by
  obtain ⟨-, -, ⟨hsync, -⟩ | ⟨-, hagent⟩⟩ := step_running_next hl h
  · simp [hb] at hsync
  · exact agentStep_async_next hb hagent

end AgentFrames

/-- Settles O35: by the agent's move, and by what ACCEPT leaves as it is. -/
theorem eachAgentWritesOnlyItsOwnRegisters : Obligations.EachAgentWritesOnlyItsOwnRegisters := by
  intro s t hb hl h
  obtain rfl | ⟨ha, -, n, -, -, rfl⟩ | ⟨ha, -, n, -, rfl⟩ := step_async_next hb hl h
  · exact ⟨Agent.move_write_side, Agent.move_read_side, Agent.move_wqRgray, Agent.move_rqWgray⟩
  · exact ⟨fun hne => absurd ha hne, fun _ => rfl, fun _ => rfl, fun _ => rfl⟩
  · exact ⟨fun _ => ⟨rfl, rfl⟩, fun hne => absurd ha hne, fun _ => rfl, fun _ => rfl⟩

section Crossing
variable (s : State)

/-- PROD sees nothing of the read domain (R111). -/
theorem prodStep_setRd (rd : ReadDomain) : (s.setRd rd).prodStep = s.prodStep.setRd rd := by
  unfold State.prodStep
  rw [State.setRd_wd]
  split
  case h_5 => exact (apply_ite (State.setRd · rd) (0 < s.wd.pLeft) s.adv1Put s.finishPut).symm
  all_goals rfl

/-- CONS sees nothing of the write domain (R111). -/
theorem consStep_setWd (wd : WriteDomain) : (s.setWd wd).consStep = s.consStep.setWd wd := by
  unfold State.consStep
  rw [State.setWd_rd]
  split
  case h_5 => exact (apply_ite (State.setWd · wd) (0 < s.rd.cLeft) s.adv1Get s.finishGet).symm
  all_goals rfl

end Crossing

/-- Settles O36: a step of PROD commutes with any change of the read domain and one of CONS with any of the write
domain, and a synchroniser reads one register of the other side. -/
theorem onlyGrayRegistersAndStorageCross : Obligations.OnlyGrayRegistersAndStorageCross :=
  ⟨prodStep_setRd, fun _ _ _ => rfl, consStep_setWd, fun _ _ _ => rfl,
    fun s _ hg => congrArg (fun g => { s.rd with rqWgray := shiftIn g s.rd.rqWgray }) hg,
    fun s _ hg => congrArg (fun g => { s.wd with wqRgray := shiftIn g s.wd.wqRgray }) hg⟩

end Sys2Proof.Machine

/-! ## What the invariant of `async_fifo` says -/

namespace Sys2Proof.Machine

section Totals
variable {s : State} {h : History}

/-- No move takes a view backwards: a SYNC step shows a later total, and no other step touches the stages (R127). -/
theorem ViewLaw.seen_le_afterAgent (v : ViewLaw s h) (a : Agent) :
    h.kSeen ≤ (h.afterAgent a s).kSeen ∧ h.dSeen ≤ (h.afterAgent a s).dSeen := by
  cases a with
  | host => exact ⟨le_rfl, le_rfl⟩
  | prod | cons =>
    simp only [History.afterAgent]
    split <;> exact ⟨le_rfl, le_rfl⟩
  | sw2r => exact ⟨(getLastD_shiftIn v.ks_sorted).1, le_rfl⟩
  | sr2w => exact ⟨le_rfl, (getLastD_shiftIn v.ds_sorted).1⟩

/-- Each total counts one at most with a step (R127). -/
theorem History.totals_after (h : History) (s : State) :
    ((h.after s).K = h.K ∨ (h.after s).K = h.K + 1) ∧ ((h.after s).D = h.D ∨ (h.after s).D = h.D + 1) := by
  unfold History.after
  split
  case h_2 | h_3 => split <;> simp
  all_goals simp

/-- The images of a total and of the next one differ in one bit (R85, R136). -/
theorem grayOf_xor_succ {W : Nat} (hW : 0 < W) (n : Nat) :
    ∃ i : Nat, i < W ∧ grayOf W n ^^^ grayOf W (n + 1) = 2 ^ i := by
  obtain ⟨b, -, -, hbit⟩ := grayUnitStepChangesOneBit W (n % 2 ^ W) hW (Nat.mod_lt _ (Nat.two_pow_pos W))
  rw [Nat.mod_add_mod] at hbit
  exact ⟨min b (W - 1), by omega, hbit⟩

/-- A legal capacity leaves a cursor at least one bit. -/
theorem capOk_width_pos {C W : Nat} (hc : capOk C W = true) : 0 < W :=
  (Nat.succ_pos _).trans_le (countWidth_le hc)

end Totals

/-- Settles O47: every register and every total is 0, and no transaction is in flight. -/
theorem asyncInvariantHoldsAfterReset : Obligations.AsyncInvariantHoldsAfterReset :=
  fun _ inputs => asyncInv_built inputs

/-- Settles O48: every agent's step keeps the invariant, and no move takes a view backwards. -/
theorem asyncStepsKeepTheInvariant : Obligations.AsyncStepsKeepTheInvariant :=
  fun s _ _ i hstep => ⟨i.of_step hstep, i.latchFrame.view.seen_le_afterAgent s.nextFrame.agent⟩

/-- Settles O55: the law at construction, and every agent's step. -/
theorem asyncFifoLaw : Obligations.AsyncFifoLaw :=
  ⟨fun cfg inputs _ _ => asyncFifo_built cfg inputs, fun _ _ _ _ i f hstep => f.of_step i hstep⟩

/-- Settles O49: each distance is one of residues of totals at most `C` apart. -/
theorem asyncDistancesAreDifferencesOfTotals : Obligations.AsyncDistancesAreDifferencesOfTotals := by
  intro s h i
  obtain ⟨h1, h2, h3, h4⟩ := i.counts.totals_le
  obtain ⟨hw, hr⟩ := State.checksOk_iff.mp i.checksOk
  exact ⟨h1, h2, h3, by omega, i.cursorDist_rdSeen, hw, i.cursorDist_wrSeen, by omega, hr, i.cursorDist_cursors⟩

/-- Settles O51: before and after the step the registers show the images of the totals, and a total counts one at
most. -/
theorem grayRegistersChangeInOneBit : Obligations.GrayRegistersChangeInOneBit := by
  intro s t h i hstep
  have hW := capOk_width_pos i.legal.1
  have v := (i.of_step hstep).view
  obtain ⟨hK, hD⟩ := h.totals_after s
  rw [v.wgray, v.rgray, step_cfg hstep, i.view.wgray, i.view.rgray]
  constructor
  · obtain hsame | hnext := hK
    · exact .inl (by rw [hsame])
    · exact .inr (hnext ▸ grayOf_xor_succ hW h.K)
  · obtain hsame | hnext := hD
    · exact .inl (by rw [hsame])
    · exact .inr (hnext ▸ grayOf_xor_succ hW h.D)

/-- Settles O52: the counts are clamped by each side's own distance, and these err towards full and empty. -/
theorem sampledCountsAreConservative : Obligations.SampledCountsAreConservative := by
  intro s h i
  obtain ⟨h1, h2, h3, h4⟩ := i.counts.totals_le
  have hput := i.clampPut_rdSeen_le s.wd.pReq
  have hget := i.clampGet_wrSeen_le s.rd.cReq
  refine ⟨?_, ?_⟩
  · show clampPut s.cfg.C s.cfg.W s.wd.pReq s.wd.writeCursor s.rdSeen ≤ _
    exact le_min (clampPut_le_req ..) (by omega)
  · show clampGet s.cfg.W s.rd.cReq s.wrSeen s.rd.readCursor ≤ _
    exact le_min (clampGet_le_req ..) (by omega)

end Sys2Proof.Machine

/-! ## The steps of a running `async_fifo`

Which step each agent takes on a state whose checks pass (R110, R112, R114, R120, R126). -/

namespace Sys2Proof.Machine

section AgentSteps
variable {s t : State} {h : History}

section Running
variable (hl : s.life = .running) (hr : s.nextFrame.pins.rstN % 2 = 1) (hc : s.checksOk = true)
  (hb : s.cfg.block = .async)
include hl hr hc hb

/-- PROD inside a PUT takes the PUT's next step (R114). -/
theorem step_eq_prodStep (ha : s.nextFrame.agent = .prod) (hp : s.wd.pPhase ≠ .idle) :
    step s = .next s.latchFrame.prodStep := by
  rw [step_eq_agentStep hl hr hc hb, ha, agentStep, if_neg (by simpa using hp)]

/-- CONS inside a GET takes the GET's next step (R120). -/
theorem step_eq_consStep (ha : s.nextFrame.agent = .cons) (hp : s.rd.cPhase ≠ .idle) :
    step s = .next s.latchFrame.consStep := by
  rw [step_eq_agentStep hl hr hc hb, ha, agentStep, if_neg (by simpa using hp)]

end Running

/-- ACCEPT is all a PUT or GET word does on an idle port whose check passes (R112). -/
theorem AsyncInv.exec_put (i : AsyncInv s h) (hp : s.wd.pPhase = .idle) {n : Nat} (hn : n ≤ s.source.length) :
    exec (.put n) s = .next (s.acceptPut n) :=
  exec_put_async i.life hp (State.checksOk_iff.mp i.checksOk).1 i.block hn

theorem AsyncInv.exec_get (i : AsyncInv s h) (hp : s.rd.cPhase = .idle) (n : Nat) :
    exec (.get n) s = .next (s.acceptGet n) :=
  exec_get_async i.life hp (State.checksOk_iff.mp i.checksOk).2 i.block n

/-- No agent's step is disabled, but for a PUT whose source is too short (R138). -/
theorem AsyncInv.exists_agentStep (i : AsyncInv s h) (a : Agent)
    (hsrc : ∀ n, a = .prod → s.wd.pPhase = .idle → s.producerInstr = .put n → n ≤ s.source.length) :
    ∃ t, agentStep a s = .next t := by
  cases a with
  | host | sw2r | sr2w => exact ⟨_, rfl⟩
  | prod =>
    by_cases hp : s.wd.pPhase = .idle
    · rw [agentStep, if_pos hp]
      obtain ⟨-, hd⟩ | ⟨-, hd⟩ := decodeP_cases s.cfg.W s.pins.pCmd
      · exact ⟨_, (congrArg (exec · s) hd).trans (i.exec_put hp (hsrc _ rfl hp hd))⟩
      · exact ⟨_, congrArg (exec · s) hd⟩
    · exact ⟨_, if_neg hp⟩
  | cons =>
    by_cases hp : s.rd.cPhase = .idle
    · rw [agentStep, if_pos hp]
      obtain ⟨-, hd⟩ | ⟨-, hd⟩ := decodeC_cases s.cfg.W s.pins.cCmd
      · exact ⟨_, (congrArg (exec · s) hd).trans (i.exec_get hp _)⟩
      · exact ⟨_, congrArg (exec · s) hd⟩
    · exact ⟨_, if_neg hp⟩

/-- A step changes storage only where PROD is in COPY (R116). -/
theorem AsyncInv.step_storage (i : AsyncInv s h) (hstep : step s = .next t) :
    t.storage = s.storage ∨ (s.wd.pPhase = .copy ∧ t.storage = s.copyPut.storage) := by
  obtain rfl | ⟨-, -, n, -, -, rfl⟩ | ⟨-, -, n, -, rfl⟩ := step_async_next i.block i.life hstep
  · by_cases ha : s.nextFrame.agent = .prod
    · rw [ha]
      by_cases hp : s.wd.pPhase = .copy
      · have hcopy : s.latchFrame.prodStep = s.latchFrame.copyPut := prodStep_copy hp
        exact .inr ⟨hp, (congrArg State.storage hcopy :)⟩
      · exact .inl (prodStep_storage_of_ne (s := s.latchFrame) hp)
    · exact .inl (Agent.move_write_side ha).1
  · exact .inl rfl
  · exact .inl rfl

/-- What a PUT in its COPY writes lies behind the positions that the producer still sees queued, and reaches no further
than the capacity from the view (R130). -/
theorem AsyncInv.put_copy_le (i : AsyncInv s h) (hp : s.wd.pPhase = .copy) : h.K + s.wd.pN ≤ h.dSeen + s.cfg.C := by
  have howes := i.counts.write_le
  simpa only [State.putOwes, hp] using howes

/-- No step rewrites a cell the producer still sees queued (R130). -/
theorem AsyncInv.step_keeps_queued_cells (i : AsyncInv s h) (hstep : step s = .next t) {j : Nat}
    (hj : h.dSeen + j < h.K) :
    t.storage.stored? (index s.cfg.C ((h.dSeen + j) % 2 ^ s.cfg.W)) =
      s.storage.stored? (index s.cfg.C ((h.dSeen + j) % 2 ^ s.cfg.W)) := by
  obtain hsame | ⟨hp, hcopy⟩ := i.step_storage hstep
  · rw [hsame]
  · have hroom := i.put_copy_le hp
    have hput := i.put
    simp only [State.putLatched, hp] at hput
    obtain ⟨hsrc, hC, hl1, hl2⟩ := hput
    rw [hcopy, State.copyPut, hl1, hl2]
    refine stored?_copyIn_of_ne i.legal.1 i.storage_wf hC hsrc.ge fun k hk => ?_
    rw [i.view.writeCursor, Nat.mod_add_mod]
    exact index_mod_ne_of_lt i.legal.1 (by omega) (by omega)

end AgentSteps

/-- Settles O38: ACCEPT is the whole step of the word. -/
theorem asyncAcceptLatchesTheRequest : Obligations.AsyncAcceptLatchesTheRequest :=
  fun _ req hl hb => ⟨fun hp ho hn => exec_put_async hl hp ho hb hn, fun hp ho => exec_get_async hl hp ho hb req⟩

/-- Settles O40, phase by phase. -/
theorem putPhaseSteps : Obligations.PutPhaseSteps := by
  intro s hl hb hc ha hr w n l1 quiet latched
  have hstep {u : State} (hp : s.wd.pPhase ≠ .idle) (hu : latched.prodStep = u) : step s = .next u := by
    rw [step_eq_prodStep hl hr hc hb ha hp, hu]
  exact ⟨fun hp => hstep (by simp [hp]) (prodStep_sample (s := latched) hp),
    fun hp => hstep (by simp [hp]) (prodStep_copy (s := latched) hp),
    fun hp => hstep (by simp [hp]) (prodStep_barrier (s := latched) hp),
    fun hp hleft => hstep (by simp [hp]) (prodStep_adv1 (s := latched) hp hleft),
    fun hp hleft => hstep (by simp [hp]) (prodStep_finish (s := latched) hp hleft),
    fun hp => hstep (by simp [hp]) (prodStep_done (s := latched) hp)⟩

/-- Settles O41, phase by phase. -/
theorem getPhaseSteps : Obligations.GetPhaseSteps := by
  intro s hl hb hc ha hr r n l1 quiet latched
  have hstep {u : State} (hp : s.rd.cPhase ≠ .idle) (hu : latched.consStep = u) : step s = .next u := by
    rw [step_eq_consStep hl hr hc hb ha hp, hu]
  exact ⟨fun hp => hstep (by simp [hp]) (consStep_sample (s := latched) hp),
    fun hp => hstep (by simp [hp]) (consStep_copy (s := latched) hp),
    fun hp => hstep (by simp [hp]) (consStep_barrier (s := latched) hp),
    fun hp hleft => hstep (by simp [hp]) (consStep_adv1 (s := latched) hp hleft),
    fun hp hleft => hstep (by simp [hp]) (consStep_finish (s := latched) hp hleft),
    fun hp => hstep (by simp [hp]) (consStep_done (s := latched) hp)⟩

/-- After a SYNC step each stage holds what came before it in the chain (R126). -/
theorem shiftIn_getElem? {x i : Nat} {l : List Nat} (hi : i < l.length) : (shiftIn x l)[i]? = (x :: l)[i]? := by
  rw [shiftIn, List.getElem?_dropLast, if_pos (by simpa using hi)]

/-- Settles O42: the chain after the step is the shifted one. -/
theorem syncStepShiftsTheChain : Obligations.SyncStepShiftsTheChain := by
  intro s hl hb hc hr
  have hstep := step_eq_agentStep hl hr hc hb
  exact ⟨fun ha => ⟨_, by rw [hstep, ha]; rfl, shiftIn_length .., fun _ => shiftIn_getElem?⟩,
    fun ha => ⟨_, by rw [hstep, ha]; rfl, shiftIn_length .., fun _ => shiftIn_getElem?⟩⟩

/-- Settles O50: the checks pass, so the step is the agent's, and that one is enabled. -/
theorem asyncStepsAreTotal : Obligations.AsyncStepsAreTotal := by
  intro s h i hr hsrc
  rw [step_eq_agentStep i.life hr i.checksOk i.block]
  exact i.latchFrame.exists_agentStep _ hsrc

/-- Settles O54: with `d2 <= D <= k2 <= K`, a PUT in flight writes positions from `K` on and up to `d2 + C`, a GET in
flight reads positions from `D` up to `k2`. -/
theorem transactionsInFlightTouchDifferentCells : Obligations.TransactionsInFlightTouchDifferentCells := by
  intro s h i
  obtain ⟨h1, h2, h3, h4⟩ := i.counts.totals_le
  rw [i.cursorDist_cursors, i.cursorDist_rdSeen, i.cursorDist_wrSeen]
  refine ⟨⟨by omega, by omega⟩, fun j k hput hget hj hk => ?_, fun t j hstep hj => ?_⟩
  · have hw := i.put_copy_le hput
    have hr := i.copy_le hget
    rw [i.view.writeCursor, i.view.readCursor, Nat.mod_add_mod, Nat.mod_add_mod]
    exact (index_mod_ne_of_lt i.legal.1 (by omega) (by omega)).symm
  · rw [i.view.rdSeen_eq, Nat.mod_add_mod]
    exact i.step_keeps_queued_cells hstep (by omega)

end Sys2Proof.Machine

/-! ## A transaction among the steps of all agents

The tracked PUT or GET moves with the steps of its own port alone, phase by phase, and no other agent touches what it
has done (R113, R119). -/

namespace Sys2Proof.Machine

/-- A split copy takes the bytes of its two segments and no more of its source (R57, R91). -/
theorem Memory.copyIn_take {l1 l2 n : Nat} (hn : l1 + l2 ≤ n) (m : Memory) (off : Nat) (src : List Byte) :
    m.copyIn off l1 l2 (src.take n) = m.copyIn off l1 l2 src := by
  rw [Memory.copyIn, List.take_take, Nat.min_eq_left (by omega), List.drop_take, List.take_take,
    Nat.min_eq_left (by omega), Memory.copyIn]

/-- Two advances are one by the sum (R87). -/
theorem adv_adv (W c n m : Nat) : adv W (adv W c n) m = adv W c (n + m) := by
  rw [adv, adv, Nat.mod_add_mod, Nat.add_assoc, adv]

section PutTracks
variable {s t : State} {q : PutTxn} {rv : Nat}

/-- What the PUT in flight has done is in storage and the write domain, and the stages of R2W and the outputs are no
part of it. -/
theorem PutTxn.tracks.of_write_side {stages : List Nat} {ret : Option Nat} (ht : q.tracks rv s)
    (hp : s.wd.pPhase ≠ .idle) (hcfg : t.cfg = s.cfg) (hm : t.storage = s.storage)
    (hwd : t.wd = { s.wd with wqRgray := stages, pReturn := ret }) : q.tracks rv t := by
  unfold PutTxn.tracks at ht ⊢
  rw [hcfg, hm, hwd]
  cases hs : s.wd.pPhase with
  | idle => contradiction
  | sample | copy | barrier | advance | done =>
    simp only [hs] at ht ⊢
    exact ht

/-- SAMPLE fixes the view the PUT goes by (R113, R115). -/
theorem PutTxn.tracks.samplePut (ht : q.tracks rv s) (hp : s.wd.pPhase = .sample) : q.tracks s.rdSeen s.samplePut := by
  simp only [PutTxn.tracks, hp] at ht
  obtain ⟨hm, hw, hreq, hsrc⟩ := ht
  have hcount : clampPut s.cfg.C s.cfg.W s.wd.pReq s.wd.writeCursor s.rdSeen = (q.result s.cfg s.rdSeen).count := by
    rw [hreq, hw]; rfl
  rw [State.samplePut, hcount, hw, hsrc]
  exact ⟨hm, hw, rfl, rfl, rfl, rfl⟩

/-- After SAMPLE each step of PROD takes the PUT to its next phase on the way to the result (R116 to R118, R125). -/
theorem PutTxn.tracks.prodStep (ht : q.tracks rv s) (hw : s.wd.writeCursor < 2 ^ s.cfg.W)
    (hidle : s.wd.pPhase ≠ .idle) (hsample : s.wd.pPhase ≠ .sample) : q.tracks rv s.prodStep := by
  cases hp : s.wd.pPhase with
  | idle | sample => contradiction
  | copy =>
    simp only [PutTxn.tracks, hp] at ht
    obtain ⟨hm, hcur, hn, hl1, hl2, hsrc⟩ := ht
    rw [prodStep_copy hp, State.copyPut, hm, hcur, hl1, hl2, hsrc, Memory.copyIn_take (seg1_add_seg2 ..).le]
    exact ⟨rfl, hcur, hn⟩
  | barrier =>
    simp only [PutTxn.tracks, hp] at ht
    obtain ⟨hm, hcur, hn⟩ := ht
    rw [prodStep_barrier hp]
    refine ⟨hm, hn, hn.le, ?_⟩
    show s.wd.writeCursor = adv s.cfg.W q.writeCursor ((q.result s.cfg rv).count - s.wd.pN)
    rw [hn, Nat.sub_self, ← hcur, adv_zero (fitsIn_iff.mpr hw)]
  | advance =>
    simp only [PutTxn.tracks, hp] at ht
    obtain ⟨hm, hn, hle, hcur⟩ := ht
    obtain hzero | hpos := Nat.eq_zero_or_pos s.wd.pLeft
    · rw [hzero, Nat.sub_zero] at hcur
      rw [prodStep_finish hp hzero]
      exact ⟨hm, hn, hcur⟩
    · rw [prodStep_adv1 hp hpos]
      simp only [PutTxn.tracks, State.adv1Put, State.setWd_wd, hp]
      refine ⟨hm, hn, (Nat.sub_le _ _).trans hle, ?_⟩
      have hcount : (q.result s.cfg rv).count - s.wd.pLeft + 1 = (q.result s.cfg rv).count - (s.wd.pLeft - 1) := by
        omega
      rw [hcur, adv_adv, hcount]
      rfl
  | done =>
    simp only [PutTxn.tracks, hp] at ht
    obtain ⟨hm, hn, hcur⟩ := ht
    rw [prodStep_done hp]
    exact ⟨hm, hcur, congrArg some hn⟩

end PutTracks

section GetTracks
variable {s t : State} {q : GetTxn} {wv : Nat} {m : Memory}

/-- What the GET in flight has done is in the read domain, and the stages of W2R and the outputs are no part of it. -/
theorem GetTxn.tracks.of_read_side {stages : List Nat} {ret : Option GetReturn} (ht : q.tracks wv m s)
    (hp : s.rd.cPhase ≠ .idle) (hcfg : t.cfg = s.cfg) (hdraw : t.draw = s.draw)
    (hrd : t.rd = { s.rd with rqWgray := stages, cReturn := ret }) : q.tracks wv m t := by
  unfold GetTxn.tracks at ht ⊢
  rw [hcfg, hdraw, hrd]
  cases hs : s.rd.cPhase with
  | idle => contradiction
  | sample | copy | barrier | advance | done =>
    simp only [hs] at ht ⊢
    exact ht

/-- SAMPLE fixes the view the GET goes by (R119, R121). -/
theorem GetTxn.tracks.sampleGet (ht : q.tracks wv m s) (hp : s.rd.cPhase = .sample) :
    q.tracks s.wrSeen m s.sampleGet := by
  simp only [GetTxn.tracks, hp] at ht
  obtain ⟨hr, hreq⟩ := ht
  have hcount : clampGet s.cfg.W s.rd.cReq s.wrSeen s.rd.readCursor =
      (q.result s.cfg s.draw s.wrSeen m).count := by
    rw [hreq, hr]; rfl
  rw [State.sampleGet, hcount, hr]
  exact ⟨hr, rfl, rfl, rfl⟩

/-- COPY fixes the storage the GET reads (R119, R122). -/
theorem GetTxn.tracks.copyGet (ht : q.tracks wv m s) (hp : s.rd.cPhase = .copy) : q.tracks wv s.storage s.copyGet := by
  simp only [GetTxn.tracks, hp] at ht
  obtain ⟨hr, hn, hl1, hl2⟩ := ht
  rw [State.copyGet, hr, hl1, hl2]
  exact ⟨hr, hn, rfl⟩

/-- After COPY each step of CONS takes the GET to its next phase on the way to the result (R123 to R125). -/
theorem GetTxn.tracks.consStep (ht : q.tracks wv m s) (hr : s.rd.readCursor < 2 ^ s.cfg.W)
    (hidle : s.rd.cPhase ≠ .idle) (hsample : s.rd.cPhase ≠ .sample) (hcopy : s.rd.cPhase ≠ .copy) :
    q.tracks wv m s.consStep := by
  cases hp : s.rd.cPhase with
  | idle | sample | copy => contradiction
  | barrier =>
    simp only [GetTxn.tracks, hp] at ht
    obtain ⟨hcur, hn, hout⟩ := ht
    rw [consStep_barrier hp]
    refine ⟨hn, hout, hn.le, ?_⟩
    show s.rd.readCursor = adv s.cfg.W q.readCursor ((q.result s.cfg s.draw wv m).count - s.rd.cN)
    rw [hn, Nat.sub_self, ← hcur, adv_zero (fitsIn_iff.mpr hr)]
  | advance =>
    simp only [GetTxn.tracks, hp] at ht
    obtain ⟨hn, hout, hle, hcur⟩ := ht
    obtain hzero | hpos := Nat.eq_zero_or_pos s.rd.cLeft
    · rw [hzero, Nat.sub_zero] at hcur
      rw [consStep_finish hp hzero]
      exact ⟨hn, hout, hcur⟩
    · rw [consStep_adv1 hp hpos]
      simp only [GetTxn.tracks, State.adv1Get, State.setRd_rd, hp]
      refine ⟨hn, hout, (Nat.sub_le _ _).trans hle, ?_⟩
      have hcount : (q.result s.cfg s.draw wv m).count - s.rd.cLeft + 1 =
          (q.result s.cfg s.draw wv m).count - (s.rd.cLeft - 1) := by omega
      rw [hcur, adv_adv, hcount]
      rfl
  | done =>
    simp only [GetTxn.tracks, hp] at ht
    obtain ⟨hn, hout, hcur⟩ := ht
    rw [consStep_done hp]
    exact ⟨hcur, congrArg₂ (fun n out => some (GetReturn.mk n out)) hn hout⟩

end GetTracks

section TracksSteps
variable {s t : State} {h : History}

theorem AsyncInv.writeCursor_lt (i : AsyncInv s h) : s.wd.writeCursor < 2 ^ s.cfg.W :=
  i.view.writeCursor ▸ Nat.mod_lt _ (Nat.two_pow_pos _)

theorem AsyncInv.readCursor_lt (i : AsyncInv s h) : s.rd.readCursor < 2 ^ s.cfg.W :=
  i.view.readCursor ▸ Nat.mod_lt _ (Nat.two_pow_pos _)

/-- On an idle port a PUT word that has a step is accepted (R112). -/
theorem AsyncInv.step_accepts_put (i : AsyncInv s h) (hstep : step s = .next t) {req : Nat}
    (ha : s.nextFrame.agent = .prod) (hp : s.wd.pPhase = .idle)
    (hd : decodeP s.cfg.W s.nextFrame.pins.pCmd = .put req) : t = s.latchFrame.acceptPut req := by
  obtain ⟨-, hagent⟩ := i.step_next hstep
  rw [ha, agentStep, if_pos (by simpa using hp)] at hagent
  obtain ⟨hnop, -⟩ | ⟨n, hput, -, rfl⟩ := i.latchFrame.producer_next hp hagent
  · exact absurd (hd.symm.trans hnop) nofun
  · obtain rfl : req = n := Instr.put.inj (hd.symm.trans hput)
    rfl

/-- On an idle port a GET word is accepted (R112). -/
theorem AsyncInv.step_accepts_get (i : AsyncInv s h) (hstep : step s = .next t) {req : Nat}
    (ha : s.nextFrame.agent = .cons) (hp : s.rd.cPhase = .idle)
    (hd : decodeC s.cfg.W s.nextFrame.pins.cCmd = .get req) : t = s.latchFrame.acceptGet req := by
  obtain ⟨-, hagent⟩ := i.step_next hstep
  rw [ha, agentStep, if_pos (by simpa using hp)] at hagent
  obtain ⟨hnop, -⟩ | ⟨n, hget, rfl⟩ := i.latchFrame.consumer_next hp hagent
  · exact absurd (hd.symm.trans hnop) nofun
  · obtain rfl : req = n := Instr.get.inj (hd.symm.trans hget)
    rfl

/-- A step of PROD inside a PUT (R114). -/
theorem AsyncInv.step_prod_busy (i : AsyncInv s h) (hstep : step s = .next t) (ha : s.nextFrame.agent = .prod)
    (hp : s.wd.pPhase ≠ .idle) : t = s.latchFrame.prodStep := by
  obtain ⟨hr, -⟩ := i.step_next hstep
  rw [step_eq_prodStep i.life hr i.checksOk i.block ha hp] at hstep
  exact (Host.Outcome.next.inj hstep).symm

/-- A step of CONS inside a GET (R120). -/
theorem AsyncInv.step_cons_busy (i : AsyncInv s h) (hstep : step s = .next t) (ha : s.nextFrame.agent = .cons)
    (hp : s.rd.cPhase ≠ .idle) : t = s.latchFrame.consStep := by
  obtain ⟨hr, -⟩ := i.step_next hstep
  rw [step_eq_consStep i.life hr i.checksOk i.block ha hp] at hstep
  exact (Host.Outcome.next.inj hstep).symm

/-- No step of a running `async_fifo` begins a construction. -/
theorem AsyncInv.step_draw (i : AsyncInv s h) (hstep : step s = .next t) : t.draw = s.draw := by
  obtain rfl | ⟨-, -, n, -, -, rfl⟩ | ⟨-, -, n, -, rfl⟩ := step_async_next i.block i.life hstep
  · exact s.nextFrame.agent.move_draw s.latchFrame
  · rfl
  · rfl

end TracksSteps

/-- Settles O57: ACCEPT begins to track the PUT, PROD's steps go through its phases, and the steps of the other agents
leave its side as it is. -/
theorem asyncPutKeepsToPutCoreUnderEverySchedule : Obligations.AsyncPutKeepsToPutCoreUnderEverySchedule := by
  intro s t h i hstep
  refine ⟨fun req rv ha hp hd => ?_, fun q rv ht => ⟨fun ha hp => ?_, fun hp hnot => ?_⟩⟩
  · rw [i.step_accepts_put hstep ha hp hd]
    exact ⟨rfl, rfl, rfl, rfl, rfl⟩
  · have hu : q.tracks rv s.latchFrame := ht.of_write_side (by simp [hp]) rfl rfl rfl
    rw [i.step_prod_busy hstep ha (by simp [hp]), prodStep_sample (s := s.latchFrame) hp]
    exact ⟨rfl, hu.samplePut hp⟩
  · by_cases ha : s.nextFrame.agent = .prod
    · have hu : q.tracks rv s.latchFrame := ht.of_write_side hp rfl rfl rfl
      rw [i.step_prod_busy hstep ha hp]
      exact hu.prodStep i.writeCursor_lt hp fun hs => hnot ⟨ha, hs⟩
    · obtain ⟨hside, -⟩ := eachAgentWritesOnlyItsOwnRegisters s t i.block i.life hstep
      obtain ⟨hm, hwd⟩ := hside ha
      exact ht.of_write_side hp (step_cfg hstep) hm hwd

/-- Settles O58: ACCEPT begins to track the GET, CONS's steps go through its phases, and the steps of the other agents
leave its side as it is. -/
theorem asyncGetKeepsToGetCoreUnderEverySchedule : Obligations.AsyncGetKeepsToGetCoreUnderEverySchedule := by
  intro s t h i hstep
  have hlatch {q : GetTxn} {wv : Nat} {m : Memory} (ht : q.tracks wv m s) (hp : s.rd.cPhase ≠ .idle) :
      q.tracks wv m s.latchFrame := ht.of_read_side hp rfl rfl rfl
  refine ⟨fun req wv m ha hp hd => ?_, fun q wv m ht => ⟨fun ha hp => ?_, fun ha hp => ?_, fun hp hnot => ?_⟩⟩
  · rw [i.step_accepts_get hstep ha hp hd]
    exact ⟨rfl, rfl, rfl⟩
  · have hbusy : s.rd.cPhase ≠ .idle := by simp [hp]
    rw [i.step_cons_busy hstep ha hbusy, consStep_sample (s := s.latchFrame) hp]
    exact ⟨rfl, (hlatch ht hbusy).sampleGet hp⟩
  · have hbusy : s.rd.cPhase ≠ .idle := by simp [hp]
    rw [i.step_cons_busy hstep ha hbusy, consStep_copy (s := s.latchFrame) hp]
    exact ⟨rfl, (hlatch ht hbusy).copyGet hp⟩
  · by_cases ha : s.nextFrame.agent = .cons
    · rw [i.step_cons_busy hstep ha hp]
      exact (hlatch ht hp).consStep i.readCursor_lt hp (fun hs => hnot ⟨ha, .inl hs⟩)
        fun hs => hnot ⟨ha, .inr hs⟩
    · obtain ⟨-, hside, -⟩ := eachAgentWritesOnlyItsOwnRegisters s t i.block i.life hstep
      exact ht.of_read_side hp (step_cfg hstep) (i.step_draw hstep) (hside ha)

end Sys2Proof.Machine

/-! ## A transaction with no step of the other port between

From ACCEPT a transaction takes five steps and one ADV1 for each byte (R114, R120). -/

namespace Sys2Proof.Machine

/-- How many steps of PROD the PUT in flight still takes to IDLE, if its view does not change before its SAMPLE
(R114). -/
def State.putStepsLeft (s : State) : Nat :=
  match s.wd.pPhase with
  | .idle => 0
  | .sample => 5 + clampPut s.cfg.C s.cfg.W s.wd.pReq s.wd.writeCursor s.rdSeen
  | .copy => 4 + s.wd.pN
  | .barrier => 3 + s.wd.pN
  | .advance => 2 + s.wd.pLeft
  | .done => 1

/-- How many steps of CONS the GET in flight still takes to IDLE, if its view does not change before its SAMPLE
(R120). -/
def State.getStepsLeft (s : State) : Nat :=
  match s.rd.cPhase with
  | .idle => 0
  | .sample => 5 + clampGet s.cfg.W s.rd.cReq s.wrSeen s.rd.readCursor
  | .copy => 4 + s.rd.cN
  | .barrier => 3 + s.rd.cN
  | .advance => 2 + s.rd.cLeft
  | .done => 1

section StepsLeft
variable {s : State} {h : History}

theorem State.putStepsLeft_eq_zero : s.putStepsLeft = 0 ↔ s.wd.pPhase = .idle := by
  cases hp : s.wd.pPhase <;> simp [State.putStepsLeft, hp]

theorem State.getStepsLeft_eq_zero : s.getStepsLeft = 0 ↔ s.rd.cPhase = .idle := by
  cases hp : s.rd.cPhase <;> simp [State.getStepsLeft, hp]

/-- Each step of PROD inside a PUT is one of those it takes (R114). -/
theorem putStepsLeft_prodStep (s : State) : s.prodStep.putStepsLeft = s.putStepsLeft - 1 := by
  cases hp : s.wd.pPhase with
  | idle => rw [prodStep_idle hp, State.putStepsLeft_eq_zero.mpr hp]
  | sample =>
    rw [prodStep_sample hp]
    simp [State.putStepsLeft, State.samplePut, hp]
  | copy =>
    rw [prodStep_copy hp]
    simp [State.putStepsLeft, State.copyPut, hp]
  | barrier =>
    rw [prodStep_barrier hp]
    simp [State.putStepsLeft, State.barrierPut, hp]
  | advance =>
    obtain hzero | hpos := Nat.eq_zero_or_pos s.wd.pLeft
    · rw [prodStep_finish hp hzero]
      simp [State.putStepsLeft, State.finishPut, hp, hzero]
    · rw [prodStep_adv1 hp hpos]
      simp [State.putStepsLeft, State.adv1Put, hp]
      omega
  | done =>
    rw [prodStep_done hp]
    simp [State.putStepsLeft, State.donePut, hp]

/-- Each step of CONS inside a GET is one of those it takes (R120). -/
theorem getStepsLeft_consStep (s : State) : s.consStep.getStepsLeft = s.getStepsLeft - 1 := by
  cases hp : s.rd.cPhase with
  | idle => rw [consStep_idle hp, State.getStepsLeft_eq_zero.mpr hp]
  | sample =>
    rw [consStep_sample hp]
    simp [State.getStepsLeft, State.sampleGet, hp]
  | copy =>
    rw [consStep_copy hp]
    simp [State.getStepsLeft, State.copyGet, hp]
  | barrier =>
    rw [consStep_barrier hp]
    simp [State.getStepsLeft, State.barrierGet, hp]
  | advance =>
    obtain hzero | hpos := Nat.eq_zero_or_pos s.rd.cLeft
    · rw [consStep_finish hp hzero]
      simp [State.getStepsLeft, State.finishGet, hp, hzero]
    · rw [consStep_adv1 hp hpos]
      simp [State.getStepsLeft, State.adv1Get, hp]
      omega
  | done =>
    rw [consStep_done hp]
    simp [State.getStepsLeft, State.doneGet, hp]

theorem putStepsLeft_repeatStep (k : Nat) (s : State) :
    (repeatStep State.prodStep k s).putStepsLeft = s.putStepsLeft - k := by
  induction k generalizing s with
  | zero => rfl
  | succ k ih => rw [repeatStep, ih, putStepsLeft_prodStep, Nat.sub_sub, Nat.add_comm]

theorem getStepsLeft_repeatStep (k : Nat) (s : State) :
    (repeatStep State.consStep k s).getStepsLeft = s.getStepsLeft - k := by
  induction k generalizing s with
  | zero => rfl
  | succ k ih => rw [repeatStep, ih, getStepsLeft_consStep, Nat.sub_sub, Nat.add_comm]

/-- A PUT is in flight until the last of its steps. -/
theorem pPhase_repeatStep_ne_idle {k : Nat} (hk : k < s.putStepsLeft) :
    (repeatStep State.prodStep k s).wd.pPhase ≠ .idle := by
  rw [ne_eq, ← State.putStepsLeft_eq_zero, putStepsLeft_repeatStep]
  omega

/-- A GET is in flight until the last of its steps. -/
theorem cPhase_repeatStep_ne_idle {k : Nat} (hk : k < s.getStepsLeft) :
    (repeatStep State.consStep k s).rd.cPhase ≠ .idle := by
  rw [ne_eq, ← State.getStepsLeft_eq_zero, getStepsLeft_repeatStep]
  omega

/-- The ADV1 steps a PUT owes, then FINISH and DONE: the cursor passes the bytes stored and the count is presented
(R118, R125). -/
theorem repeatStep_prodStep_advance {n : Nat} (hp : s.wd.pPhase = .advance) (hleft : s.wd.pLeft = n)
    (hw : s.wd.writeCursor < 2 ^ s.cfg.W) (hg : s.wd.wgray = bin2gray s.wd.writeCursor) :
    repeatStep State.prodStep (n + 2) s = s.setWd
      { s.wd with
        writeCursor := adv s.cfg.W s.wd.writeCursor n, wgray := bin2gray (adv s.cfg.W s.wd.writeCursor n),
        pPhase := .idle, pLeft := 0, pReturn := some s.wd.pN } := by
  induction n generalizing s with
  | zero =>
    rw [repeatStep, prodStep_finish hp hleft, adv_zero (fitsIn_iff.mpr hw), ← hg, ← hleft]
    rfl
  | succ n ih =>
    rw [repeatStep, prodStep_adv1 hp (by omega),
      ih (s := s.adv1Put) hp (by simp [State.adv1Put, hleft]) (adv_lt ..) rfl]
    show s.setWd { s.wd with
      writeCursor := adv s.cfg.W (adv s.cfg.W s.wd.writeCursor 1) n,
      wgray := bin2gray (adv s.cfg.W (adv s.cfg.W s.wd.writeCursor 1) n),
      pPhase := .idle, pLeft := 0, pReturn := some s.wd.pN } = _
    rw [adv_adv, Nat.add_comm 1 n]

/-- The ADV1 steps a GET owes, then FINISH and DONE: the cursor passes the bytes read, and the count and the bytes are
presented (R124, R125). -/
theorem repeatStep_consStep_advance {n : Nat} (hp : s.rd.cPhase = .advance) (hleft : s.rd.cLeft = n)
    (hr : s.rd.readCursor < 2 ^ s.cfg.W) (hg : s.rd.rgray = bin2gray s.rd.readCursor) :
    repeatStep State.consStep (n + 2) s = s.setRd
      { s.rd with
        readCursor := adv s.cfg.W s.rd.readCursor n, rgray := bin2gray (adv s.cfg.W s.rd.readCursor n),
        cPhase := .idle, cLeft := 0, cReturn := some { count := s.rd.cN, data := s.rd.cOut } } := by
  induction n generalizing s with
  | zero =>
    rw [repeatStep, consStep_finish hp hleft, adv_zero (fitsIn_iff.mpr hr), ← hg, ← hleft]
    rfl
  | succ n ih =>
    rw [repeatStep, consStep_adv1 hp (by omega),
      ih (s := s.adv1Get) hp (by simp [State.adv1Get, hleft]) (adv_lt ..) rfl]
    show s.setRd { s.rd with
      readCursor := adv s.cfg.W (adv s.cfg.W s.rd.readCursor 1) n,
      rgray := bin2gray (adv s.cfg.W (adv s.cfg.W s.rd.readCursor 1) n),
      cPhase := .idle, cLeft := 0, cReturn := some { count := s.rd.cN, data := s.rd.cOut } } = _
    rw [adv_adv, Nat.add_comm 1 n]

end StepsLeft

/-- Settles O43: SAMPLE, COPY and BARRIER, then the `n + 2` steps of the advance. -/
theorem asyncPutNetEffectIsPutCore : Obligations.AsyncPutNetEffectIsPutCore := by
  intro s req hl hb hp ho hn hw hg p
  refine ⟨_, exec_put_async hl hp ho hb hn, fun k hk => pPhase_repeatStep_ne_idle hk, ?_⟩
  rw [show 5 + p.count = p.count + 2 + 3 by omega]
  have hadvance := repeatStep_prodStep_advance (s := (s.acceptPut req).samplePut.copyPut.barrierPut) rfl rfl
    (fitsIn_iff.mp hw) hg
  rw [← hp] at hadvance
  refine hadvance.trans ?_
  have hcopy : s.storage.copyIn (index s.cfg.C s.wd.writeCursor) (seg1 s.cfg.C s.wd.writeCursor p.count)
      (seg2 s.cfg.C s.wd.writeCursor p.count) (s.source.take p.count) = p.storage :=
    Memory.copyIn_take (seg1_add_seg2 ..).le _ _ _
  rw [← hcopy]
  rfl

/-- Settles O44: SAMPLE, COPY and BARRIER, then the `n + 2` steps of the advance. -/
theorem asyncGetNetEffectIsGetCore : Obligations.AsyncGetNetEffectIsGetCore := by
  intro s req hl hb hp ho hr hg g
  refine ⟨_, exec_get_async hl hp ho hb req, fun k hk => cPhase_repeatStep_ne_idle hk, ?_⟩
  rw [show 5 + g.count = g.count + 2 + 3 by omega]
  have hadvance := repeatStep_consStep_advance (s := (s.acceptGet req).sampleGet.copyGet.barrierGet) rfl rfl
    (fitsIn_iff.mp hr) hg
  rwa [← hp] at hadvance

end Sys2Proof.Machine

/-! ## Settled rings

With every stage at the present Gray register each view is the cursor itself, a SYNC step samples what its stages
already hold, and a transaction sees what `sync_fifo` sees (R132). -/

namespace Sys2Proof.Machine

/-- A chain of stages that all hold the image of a cursor shows that cursor. -/
theorem gray2bin_getLastD_replicate {W n b : Nat} (hn : n ≠ 0) (hb : b < 2 ^ W) :
    gray2bin W ((List.replicate n (bin2gray b)).getLastD 0) = b := by
  rw [List.getLastD_eq_getLast?, List.getLast?_replicate, if_neg hn, Option.getD_some, gray2bin_bin2gray hb]

/-- A stage that samples what it holds keeps it (R126). -/
theorem shiftIn_replicate (x n : Nat) : shiftIn x (List.replicate n x) = List.replicate n x :=
  List.dropLast_replicate (n := n + 1)

section Stages
variable {x k i : Nat} {l : List Nat}

theorem iterate_shiftIn_length (x k : Nat) (l : List Nat) : ((shiftIn x)^[k] l).length = l.length := by
  induction k with
  | zero => rfl
  | succ k ih => rw [Function.iterate_succ_apply', shiftIn_length, ih]

/-- After `k` SYNC steps of one and the same register the first `k` stages hold it (R126). -/
theorem iterate_shiftIn_getElem? (hk : i < k) (hi : i < l.length) : ((shiftIn x)^[k] l)[i]? = some x := by
  induction k generalizing i with
  | zero => omega
  | succ k ih =>
    rw [Function.iterate_succ_apply', shiftIn_getElem? (by rwa [iterate_shiftIn_length])]
    cases i with
    | zero => rfl
    | succ i => rw [List.getElem?_cons_succ, ih (by omega) (by omega)]

/-- As many SYNC steps as there are stages bring the register to all of them (R132). -/
theorem iterate_shiftIn_eq_replicate (hl : l.length = k) : (shiftIn x)^[k] l = List.replicate k x := by
  refine List.eq_replicate_iff.mpr ⟨(iterate_shiftIn_length ..).trans hl, fun b hb => ?_⟩
  obtain ⟨i, hi, rfl⟩ := List.getElem_of_mem hb
  rw [iterate_shiftIn_length] at hi
  exact (List.getElem_eq_iff _).mpr (iterate_shiftIn_getElem? (by omega) hi)

theorem repeatStep_syncW2R (k : Nat) (s : State) :
    repeatStep State.syncW2R k s = s.setRd { s.rd with rqWgray := (shiftIn s.wd.wgray)^[k] s.rd.rqWgray } := by
  induction k generalizing s with
  | zero => rfl
  | succ k ih => rw [repeatStep, ih]; rfl

theorem repeatStep_syncR2W (k : Nat) (s : State) :
    repeatStep State.syncR2W k s = s.setWd { s.wd with wqRgray := (shiftIn s.rd.rgray)^[k] s.wd.wqRgray } := by
  induction k generalizing s with
  | zero => rfl
  | succ k ih => rw [repeatStep, ih]; rfl

end Stages

section Settling
variable {s : State} {h : History}

/-- The Gray registers are the images of the cursors (R20). -/
theorem ViewLaw.gray_eq (v : ViewLaw s h) :
    s.wd.wgray = bin2gray s.wd.writeCursor ∧ s.rd.rgray = bin2gray s.rd.readCursor := by
  rw [v.wgray, v.rgray, v.writeCursor, v.readCursor]
  exact ⟨rfl, rfl⟩

/-- There are `N_SYNC` stages in each chain (R21). -/
theorem ViewLaw.stages_length (v : ViewLaw s h) :
    s.rd.rqWgray.length = s.cfg.nSync ∧ s.wd.wqRgray.length = s.cfg.nSync := by
  rw [v.rqWgray, v.wqRgray, List.length_map, List.length_map]
  exact ⟨v.ks_length, v.ds_length⟩

theorem AsyncInv.nSync_ne_zero (i : AsyncInv s h) : s.cfg.nSync ≠ 0 := (Nat.zero_lt_two.trans_le i.legal.2).ne'

/-- In a settled state each view is the cursor itself (R132). -/
theorem AsyncInv.views_of_settled (i : AsyncInv s h) (st : Settled s) :
    s.wrSeen = s.wd.writeCursor ∧ s.rdSeen = s.rd.readCursor := by
  obtain ⟨hw, hr⟩ := i.view.gray_eq
  rw [State.wrSeen, State.rdSeen, st.rqWgray, st.wqRgray, hw, hr]
  exact ⟨gray2bin_getLastD_replicate i.nSync_ne_zero i.writeCursor_lt,
    gray2bin_getLastD_replicate i.nSync_ne_zero i.readCursor_lt⟩

/-- Invariant 2 on the true cursors (R16). -/
theorem AsyncInv.distance (i : AsyncInv s h) : cursorDist s.cfg.W s.wd.writeCursor s.rd.readCursor ≤ s.cfg.C := by
  obtain ⟨h1, h2, h3, h4⟩ := i.counts.totals_le
  rw [i.cursorDist_cursors]
  omega

end Settling

/-- Settles O46: after `N_SYNC` SYNC steps of each synchroniser every stage holds the Gray register it samples, the
image of the cursor. -/
theorem syncStepsSettleAnIdleRing : Obligations.SyncStepsSettleAnIdleRing := by
  intro s h i hp hc t
  obtain ⟨hw, hr⟩ := i.view.gray_eq
  obtain ⟨hlw, hlr⟩ := i.view.stages_length
  have ht : t = (s.setRd { s.rd with rqWgray := List.replicate s.cfg.nSync s.wd.wgray }).setWd
      { s.wd with wqRgray := List.replicate s.cfg.nSync s.rd.rgray } := by
    rw [← iterate_shiftIn_eq_replicate hlw, ← iterate_shiftIn_eq_replicate hlr]
    exact (repeatStep_syncR2W ..).trans (by rw [repeatStep_syncW2R]; rfl)
  rw [ht]
  refine ⟨⟨hp, hc, rfl, rfl⟩, ?_, ?_, rfl, rfl, rfl⟩
  · show gray2bin s.cfg.W ((List.replicate s.cfg.nSync s.wd.wgray).getLastD 0) = _
    rw [hw, gray2bin_getLastD_replicate i.nSync_ne_zero i.writeCursor_lt]
  · show gray2bin s.cfg.W ((List.replicate s.cfg.nSync s.rd.rgray).getLastD 0) = _
    rw [hr, gray2bin_getLastD_replicate i.nSync_ne_zero i.readCursor_lt]

section Schedules
variable {s : State} {k : Nat} {schedule : List Agent}

theorem repeatStep_prodStep_setRd (k : Nat) (s : State) (rd : ReadDomain) :
    repeatStep State.prodStep k (s.setRd rd) = (repeatStep State.prodStep k s).setRd rd := by
  induction k generalizing s with
  | zero => rfl
  | succ k ih => rw [repeatStep, prodStep_setRd, ih, repeatStep]

theorem repeatStep_consStep_setWd (k : Nat) (s : State) (wd : WriteDomain) :
    repeatStep State.consStep k (s.setWd wd) = (repeatStep State.consStep k s).setWd wd := by
  induction k generalizing s with
  | zero => rfl
  | succ k ih => rw [repeatStep, consStep_setWd, ih, repeatStep]

/-- With the producer's view settled and no step of CONS, a schedule is its steps of PROD alone, up to the stages of
W2R (R132). -/
theorem runAgents_without_cons (hq : s.wd.wqRgray = List.replicate k s.rd.rgray) (hcons : .cons ∉ schedule) :
    ∃ rd, runAgents schedule s = (repeatStep State.prodStep (schedule.count .prod) s).setRd rd ∧
      rd.readCursor = s.rd.readCursor := by
  induction schedule generalizing s with
  | nil => exact ⟨s.rd, rfl, rfl⟩
  | cons a rest ih =>
    obtain ⟨hne, hrest⟩ : .cons ≠ a ∧ .cons ∉ rest := by simpa using hcons
    cases a with
    | host => exact ih hq hrest
    | prod =>
      obtain ⟨rd, hrun, hread⟩ := ih (s := s.prodStep) (by simpa using hq) hrest
      rw [prodStep_rd] at hread
      exact ⟨rd, by rw [List.count_cons_self]; exact hrun, hread⟩
    | cons => contradiction
    | sw2r =>
      obtain ⟨rd, hrun, hread⟩ := ih (s := s.syncW2R) hq hrest
      rw [State.syncW2R, repeatStep_prodStep_setRd] at hrun
      exact ⟨rd, hrun, hread⟩
    | sr2w =>
      have hsame : s.syncR2W = s := by
        rw [State.syncR2W, hq, shiftIn_replicate, ← hq]
        rfl
      obtain ⟨rd, hrun, hread⟩ := ih hq hrest
      exact ⟨rd, (congrArg (runAgents rest) hsame).trans hrun, hread⟩

/-- With the consumer's view settled and no step of PROD, a schedule is its steps of CONS alone, up to the stages of
R2W (R132). -/
theorem runAgents_without_prod (hq : s.rd.rqWgray = List.replicate k s.wd.wgray) (hprod : .prod ∉ schedule) :
    ∃ wd, runAgents schedule s = (repeatStep State.consStep (schedule.count .cons) s).setWd wd ∧
      wd.writeCursor = s.wd.writeCursor := by
  induction schedule generalizing s with
  | nil => exact ⟨s.wd, rfl, rfl⟩
  | cons a rest ih =>
    obtain ⟨hne, hrest⟩ : .prod ≠ a ∧ .prod ∉ rest := by simpa using hprod
    cases a with
    | host => exact ih hq hrest
    | prod => contradiction
    | cons =>
      obtain ⟨wd, hrun, hwrite⟩ := ih (s := s.consStep) (by simpa using hq) hrest
      rw [consStep_wd] at hwrite
      exact ⟨wd, by rw [List.count_cons_self]; exact hrun, hwrite⟩
    | sw2r =>
      have hsame : s.syncW2R = s := by
        rw [State.syncW2R, hq, shiftIn_replicate, ← hq]
        rfl
      obtain ⟨wd, hrun, hwrite⟩ := ih hq hrest
      exact ⟨wd, (congrArg (runAgents rest) hsame).trans hrun, hwrite⟩
    | sr2w =>
      obtain ⟨wd, hrun, hwrite⟩ := ih (s := s.syncR2W) hq hrest
      rw [State.syncR2W, repeatStep_consStep_setWd] at hrun
      exact ⟨wd, hrun, hwrite⟩

end Schedules

/-- Settles O45: the schedule is the steps of the one port, whose net effect is that of the core function with the
view, and the view is the cursor. -/
theorem settledAsyncTransactionEqualsSync : Obligations.SettledAsyncTransactionEqualsSync := by
  intro s h req i st asSync
  obtain ⟨hwv, hrv⟩ := i.views_of_settled st
  obtain ⟨hwg, hrg⟩ := i.view.gray_eq
  obtain ⟨how, hor⟩ := State.checksOk_iff.mp i.checksOk
  have hok : invOk s.cfg.C s.cfg.W s.wd.writeCursor s.rd.readCursor = true := invOk_iff.mpr i.distance
  refine ⟨fun hn => ⟨_, _, i.exec_put st.pPhase hn, exec_put_sync (s := asSync) i.life st.pPhase hok rfl hn,
    fun schedule hcons hcount => ?_⟩, ⟨_, _, i.exec_get st.cPhase req,
    exec_get_sync (s := asSync) i.life st.cPhase hok rfl req, fun schedule hprod hcount => ?_⟩⟩
  · obtain ⟨t, ht, -, hend⟩ := asyncPutNetEffectIsPutCore s req i.life i.block st.pPhase how hn
      (fitsIn_iff.mpr i.writeCursor_lt) hwg
    rw [i.exec_put st.pPhase hn] at ht
    obtain rfl := Host.Outcome.next.inj ht
    obtain ⟨rd, hrun, hread⟩ := runAgents_without_cons (s := s.acceptPut req) st.wqRgray hcons
    rw [hrv] at hend
    have hv := hrun.trans (congrArg (State.setRd · rd) ((congrArg (repeatStep _ · _) hcount).trans hend))
    rw [hv]
    exact ⟨st.pPhase, rfl, rfl, hread, rfl⟩
  · obtain ⟨t, ht, -, hend⟩ := asyncGetNetEffectIsGetCore s req i.life i.block st.cPhase hor
      (fitsIn_iff.mpr i.readCursor_lt) hrg
    rw [i.exec_get st.cPhase req] at ht
    obtain rfl := Host.Outcome.next.inj ht
    obtain ⟨wd, hrun, hwrite⟩ := runAgents_without_prod (s := s.acceptGet req) st.rqWgray hprod
    rw [hwv] at hend
    have hv := hrun.trans (congrArg (State.setWd · wd) ((congrArg (repeatStep _ · _) hcount).trans hend))
    rw [hv]
    exact ⟨st.cPhase, rfl, hwrite, rfl, rfl⟩

end Sys2Proof.Machine

/-! ## The end of a run

Without commands an idle port stays idle, and without frames a port in a transaction takes the steps that are left to
it (R138). -/

namespace Sys2Proof.Machine

theorem bitSlice_zero (w : Nat) : bitSlice 0 0 w = w % 2 := by simp [bitSlice]

/-- A frame without a command has reset released and idle words on both ports (R52 to R54). -/
theorem Frame.words_of_quiet {f : Frame} (hf : f.presentsCommand = false) :
    f.pins.rstN % 2 = 1 ∧ f.pins.pCmd % 2 = 0 ∧ f.pins.cCmd % 2 = 0 := by
  simp only [Frame.presentsCommand, bitSlice_zero, Bool.or_eq_false_iff, decide_eq_false_iff_not] at hf
  omega

section RunOver
variable {s : State}

/-- When a run is over the next frame presents no command, whether one is left or not (R138). -/
theorem State.nextFrame_quiet (hq : ∀ f ∈ s.inputs, f.presentsCommand = false) (hp : s.wd.pPhase = .idle)
    (hc : s.rd.cPhase = .idle) : s.nextFrame.presentsCommand = false := by
  cases hi : s.inputs with
  | nil => rw [State.nextFrame_over hi hp hc]; rfl
  | cons f rest =>
    have hf : s.nextFrame = f := by simp [State.nextFrame, hi]
    exact hf ▸ hq f (by simp [hi])

/-- On idle words and idle ports a step does nothing but a SYNC step of a synchroniser whose turn it is (R96, R97,
R126). -/
theorem step_of_quiet (hl : s.life = .running) (ho : s.checksOk = true) (hp : s.wd.pPhase = .idle)
    (hc : s.rd.cPhase = .idle) (hf : s.nextFrame.presentsCommand = false) :
    step s = .next s.latchFrame ∨ step s = .next s.latchFrame.syncW2R ∨ step s = .next s.latchFrame.syncR2W := by
  obtain ⟨hr, hput, hget⟩ := Frame.words_of_quiet hf
  have hpnop : s.latchFrame.producerInstr = .pnop := decodeP_of_even _ hput
  have hcnop : s.latchFrame.consumerInstr = .cnop := decodeC_of_even _ hget
  cases hb : s.cfg.block with
  | sync =>
    rw [step_eq_bothPorts hl hr ho hb, bothPorts, hpnop, hcnop]
    exact .inl rfl
  | async =>
    rw [step_eq_agentStep hl hr ho hb]
    cases s.nextFrame.agent with
    | host => exact .inl rfl
    | prod =>
      rw [agentStep, if_pos (by simpa using hp), hpnop]
      exact .inl rfl
    | cons =>
      rw [agentStep, if_pos (by simpa using hc), hcnop]
      exact .inl rfl
    | sw2r => exact .inr (.inl rfl)
    | sr2w => exact .inr (.inr rfl)

end RunOver

section Resting
variable {s : State} {h : History}

/-- How many steps the ports still take when HOST has no more frames. -/
def State.restStepsLeft (s : State) : Nat := s.putStepsLeft + s.getStepsLeft

theorem getStepsLeft_prodStep (s : State) : s.prodStep.getStepsLeft = s.getStepsLeft := by
  simp only [State.getStepsLeft, State.wrSeen, prodStep_rd, prodStep_cfg]

theorem putStepsLeft_consStep (s : State) : s.consStep.putStepsLeft = s.putStepsLeft := by
  simp only [State.putStepsLeft, State.rdSeen, consStep_wd, consStep_cfg]

/-- A transaction takes five steps after ACCEPT and one for each byte, which are `C` at most (R114). -/
theorem AsyncInv.putStepsLeft_le (i : AsyncInv s h) : s.putStepsLeft ≤ 5 + s.cfg.C := by
  have hput := i.put
  cases hp : s.wd.pPhase <;> simp only [State.putLatched, hp] at hput <;> simp only [State.putStepsLeft, hp]
  case sample => exact Nat.add_le_add_left (clampPut_le ..) 5
  all_goals omega

/-- A transaction takes five steps after ACCEPT and one for each byte, which are `C` at most (R120). -/
theorem AsyncInv.getStepsLeft_le (i : AsyncInv s h) : s.getStepsLeft ≤ 5 + s.cfg.C := by
  have hget := i.get
  cases hp : s.rd.cPhase <;> simp only [State.getLatched, hp] at hget <;> simp only [State.getStepsLeft, hp]
  case sample =>
    have hcount := i.clampGet_wrSeen_le s.rd.cReq
    obtain ⟨h1, h2, h3, h4⟩ := i.counts.totals_le
    omega
  all_goals omega

/-- Without frames a port that is not idle takes one of the steps left to it (R138). -/
theorem AsyncInv.rest_step (i : AsyncInv s h) (hin : s.inputs = []) (hbusy : s.restStepsLeft ≠ 0) :
    ∃ t, step s = .next t ∧ t.inputs = [] ∧ t.restStepsLeft + 1 = s.restStepsLeft := by
  have htail : s.latchFrame.inputs = [] := by simp [hin]
  by_cases hp : s.wd.pPhase = .idle
  · have hzero := State.putStepsLeft_eq_zero.mpr hp
    have hc : s.rd.cPhase ≠ .idle := fun hc => hbusy (by
      rw [State.restStepsLeft, hzero, State.getStepsLeft_eq_zero.mpr hc])
    have hframe := State.nextFrame_get hin hp hc
    refine ⟨_, step_eq_consStep i.life (by rw [hframe]; rfl) i.checksOk i.block (by rw [hframe]) hc,
      (consStep_inputs _).trans htail, ?_⟩
    rw [State.restStepsLeft, putStepsLeft_consStep, getStepsLeft_consStep]
    show s.putStepsLeft + (s.getStepsLeft - 1) + 1 = s.putStepsLeft + s.getStepsLeft
    have hpos := mt State.getStepsLeft_eq_zero.mp hc
    omega
  · have hframe := State.nextFrame_put hin hp
    refine ⟨_, step_eq_prodStep i.life (by rw [hframe]; rfl) i.checksOk i.block (by rw [hframe]) hp,
      (prodStep_inputs _).trans htail, ?_⟩
    rw [State.restStepsLeft, putStepsLeft_prodStep, getStepsLeft_prodStep]
    show s.putStepsLeft - 1 + s.getStepsLeft + 1 = s.putStepsLeft + s.getStepsLeft
    have hpos := mt State.putStepsLeft_eq_zero.mp hp
    omega

/-- Without frames a run is over after the steps left to the ports (R138). -/
theorem AsyncInv.runSteps_rest {k : Nat} (i : AsyncInv s h) (hin : s.inputs = []) (hk : s.restStepsLeft = k) :
    ∃ t, runSteps k s = some t ∧ t.runOver = true := by
  induction k generalizing s h with
  | zero =>
    obtain ⟨hput, hget⟩ := Nat.add_eq_zero_iff.mp hk
    exact ⟨s, rfl, State.runOver_iff.mpr
      ⟨by simp [hin], State.putStepsLeft_eq_zero.mp hput, State.getStepsLeft_eq_zero.mp hget⟩⟩
  | succ k ih =>
    obtain ⟨t, hstep, htin, hleft⟩ := i.rest_step hin (by omega)
    obtain ⟨u, hrun, hover⟩ := ih (i.of_step hstep) htin (by omega)
    exact ⟨u, by rw [runSteps, hstep]; exact hrun, hover⟩

end Resting

/-- Settles O60: on idle words the ports stay as they are, and without frames the steps left to the ports count down
to the end. -/
theorem runsComeToTheirEnd : Obligations.RunsComeToTheirEnd := by
  refine ⟨fun s hl ho hover => ?_, fun s h i hin => ?_⟩
  · obtain ⟨hq, hp, hc⟩ := State.runOver_iff.mp hover
    have hrest : ∀ f ∈ s.inputs.tail, f.presentsCommand = false := fun f hf => hq f (List.mem_of_mem_tail hf)
    obtain hstep | hstep | hstep := step_of_quiet hl ho hp hc (State.nextFrame_quiet hq hp hc)
    all_goals exact ⟨_, hstep, State.runOver_iff.mpr ⟨hrest, hp, hc⟩, rfl, rfl, rfl⟩
  · obtain ⟨t, hrun, hover⟩ := i.runSteps_rest hin rfl
    have hput := i.putStepsLeft_le
    have hget := i.getStepsLeft_le
    exact ⟨_, t, by rw [State.restStepsLeft]; omega, hrun, hover⟩

end Sys2Proof.Machine

/-! ## Exceptions

What INIT answers when no ring is constructed, when a port is ready, and the stop on a broken invariant 2 (R140 to
R142, R146, R153, R158). -/

namespace Sys2Proof.Machine

section Exceptions
variable {s : State}

/-! INIT on every mode of the ring but the one that constructs it, which is `execInit_awaiting`. -/

/-- INIT on invalid parameters raises `InvalidCapacity` (R140). -/
theorem execInit_invalid (hl : s.life = .awaiting) (hc : capOk s.cfg.C s.cfg.W = false) :
    execInit s = .next s.raiseInvalidCapacity := by
  simp [execInit, hl, hc]

/-- A reset level that stays low is the same INIT going on (R146). -/
theorem execInit_held (hl : s.life = .held) : execInit s = .next s := by simp [execInit, hl]

/-- A ring that runs has no second INIT (R158). -/
theorem execInit_running (hl : s.life = .running) : execInit s = .refused .resetMidRun := by simp [execInit, hl]

/-- A failed construction stays failed (R142). -/
theorem execInit_failed {c : Nat} (hl : s.life = .failed c) : execInit s = .next s := by simp [execInit, hl]

/-- After a failed construction a step takes its frame and does nothing else, whatever the reset level (R142, R148). -/
theorem step_of_failed {c : Nat} (hl : s.life = .failed c) : step s = .next s.latchFrame := by
  obtain hr | hr := Nat.mod_two_eq_zero_or_one s.nextFrame.pins.rstN
  · exact (step_of_reset hr).trans (execInit_failed (s := s.latchFrame) hl)
  · rw [step_of_released hr, State.releaseReset_of_not_held (by simp [hl])]
    simp [runStep, hl]

/-! The ready outputs (R50). -/

/-- Reset is released when the Format R word is odd (R54). -/
theorem State.resetReleased_iff : s.resetReleased = true ↔ s.pins.rstN % 2 = 1 := by
  obtain ⟨hw, hd⟩ | ⟨hw, hd⟩ := decodeR_cases s.pins.rstN <;> simp [State.resetReleased, hd, hw]

theorem State.pReady_iff :
    s.pReady = true ↔ s.life = .running ∧ s.pins.rstN % 2 = 1 ∧ s.wd.pPhase = .idle := by
  simp [State.pReady, State.resetReleased_iff, and_assoc]

theorem State.cReady_iff :
    s.cReady = true ↔ s.life = .running ∧ s.pins.rstN % 2 = 1 ∧ s.rd.cPhase = .idle := by
  simp [State.cReady, State.resetReleased_iff, and_assoc]

/-- Without a running ring `p_ready` is down (R142). -/
theorem State.pReady_of_not_running (hl : s.life ≠ .running) : s.pReady = false :=
  Bool.eq_false_iff.mpr fun h => hl (State.pReady_iff.mp h).1

/-- Without a running ring `c_ready` is down (R142). -/
theorem State.cReady_of_not_running (hl : s.life ≠ .running) : s.cReady = false :=
  Bool.eq_false_iff.mpr fun h => hl (State.cReady_iff.mp h).1

/-! A broken invariant 2 on a running ring. -/

section Broken
variable (hl : s.life = .running)
include hl

/-- The checks come before the words on the ports: a step faults whatever stands there (R153). -/
theorem step_of_broken (ho : s.checksOk = false) (hr : s.nextFrame.pins.rstN % 2 = 1) :
    step s = .fault .invariantViolated := by
  rw [step_of_released hr, State.releaseReset_of_not_held (by simp [hl])]
  simp [runStep, hl, ho]

/-- A PUT on an idle port looks at its own check before its source (R153). -/
theorem execPut_of_broken (ho : s.invOkW = false) (hp : s.wd.pPhase = .idle) (n : Nat) :
    execPut n s = .fault .invariantViolated := by
  simp [execPut, hl, hp, ho]

/-- A GET on an idle port looks at its own check first (R153). -/
theorem execGet_of_broken (ho : s.invOkR = false) (hc : s.rd.cPhase = .idle) (n : Nat) :
    execGet n s = .fault .invariantViolated := by
  simp [execGet, hl, hc, ho]

end Broken

end Exceptions

/-- Settles O14: INIT raises the exception, a failed construction stays as it is under every step, and both ready
outputs need a running ring. -/
theorem invalidCapacityIsFatalToConstruction : Obligations.InvalidCapacityIsFatalToConstruction := by
  refine ⟨fun s hl hc => execInit_invalid hl hc, fun s c hl => ?_, fun s => ⟨State.pReady_iff, State.cReady_iff⟩⟩
  have hnot : s.latchFrame.life ≠ .running := by simp [hl]
  exact ⟨step_of_failed hl, hl, State.pReady_of_not_running hnot, State.cReady_of_not_running hnot⟩

/-- Settles O15: with reset asserted a step is INIT, which a held ring goes on with and a running one refuses. -/
theorem resetOverridesCommandWords : Obligations.ResetOverridesCommandWords := by
  intro s hr
  have hstep := step_of_reset hr
  exact ⟨hstep, fun hl => hstep.trans (execInit_held hl), fun hl => hstep.trans (execInit_running hl)⟩

/-- Settles O23: a step looks at both checks first, and PUT and GET on an idle port at their own. -/
theorem brokenInvariantIsAFault : Obligations.BrokenInvariantIsAFault :=
  fun _ hl => ⟨step_of_broken hl, fun n ho hp => execPut_of_broken hl ho hp n,
    fun n ho hc => execGet_of_broken hl ho hc n⟩

end Sys2Proof.Machine

/-! ## From construction to the start of a run

What release of reset makes of a ring just constructed, and what a command presented before construction answers
(R155, R159, R160). -/

namespace Sys2Proof.Machine

/-- Release of reset sets a ring just constructed running and changes no other field (R159, R160). -/
theorem State.construct_releaseReset (s : State) : s.construct.releaseReset = s.construct.setLife .running :=
  State.releaseReset_of_held s.construct_life

/-- The first construction of a ring, released, is the state its runs start from (R155). -/
theorem State.unbuilt_construct_releaseReset (cfg : Config) (inputs : List Frame) :
    (State.unbuilt cfg inputs).construct.releaseReset = State.built cfg inputs :=
  State.construct_releaseReset _

/-- The reference parameters are legal (R1, R2, R6). -/
theorem Config.reference_legal : LegalConfig Config.reference := by decide

section Awaiting
variable {s : State} (hl : s.life = .awaiting) (n : Nat)
include hl

/-- PUT looks at the mode of the ring before its port and its source (R159). -/
theorem execPut_awaiting : execPut n s = .refused .commandBeforeInit := by simp [execPut, hl]

/-- GET looks at the mode of the ring before its port (R159). -/
theorem execGet_awaiting : execGet n s = .refused .commandBeforeInit := by simp [execGet, hl]

end Awaiting

/-- Settles O13: INIT on legal parameters constructs the ring, release of reset makes the construction the start of a
run, and `State.reset` is that start on the reference parameters. -/
theorem releasedConstructionIsTheStartOfARun : Obligations.ReleasedConstructionIsTheStartOfARun :=
  ⟨fun cfg inputs hc => ⟨_, execInit_awaiting (s := State.unbuilt cfg inputs) rfl hc,
      State.unbuilt_construct_releaseReset cfg inputs⟩,
    rfl, Config.reference_legal⟩

/-- Settles O16: on a ring that awaits INIT each port's command is refused. -/
theorem commandBeforeInitIsRefused : Obligations.CommandBeforeInitIsRefused :=
  fun _ n hl => ⟨execPut_awaiting hl n, execGet_awaiting hl n⟩

end Sys2Proof.Machine
